-- ==== Sys2Proof/Word.lean ====
section
/-! DEFINITION. The value types of the machine (00_scope.md R10, R11; 30_encoding.md R60): bytes, 16-bit words, the
fields of an instruction word, and the numbers of registers and keys. -/

namespace Sys2Proof

/-- An 8-bit value: a general register, a timer, a byte of memory (R16, R27, R28, R41). -/
abbrev Byte := BitVec 8

/-- A 16-bit value: an instruction word, pc, I, a return address (R19, R21, R25, R59). -/
abbrev Word := BitVec 16

/-- The 12-bit immediate address NNN (R60). -/
abbrev Addr12 := BitVec 12

/-- The 4-bit immediate N (R60). -/
abbrev Nibble := BitVec 4

/-- The number of a general register, V0 to VF (R16). -/
abbrev Reg := Fin 16

/-- The number of a key, 0 to F (R30). -/
abbrev Key := Fin 16

/-- The flag register VF (R17). -/
abbrev VF : Reg := 15

end Sys2Proof
end

