-- ==== Sys2Proof/Config.lean ====
section
/-! DEFINITION. What is fixed for a run (00_scope.md R8; 10_state.md R31; 70_reset_and_hazards.md R139) and the one free
value of the spec, the random byte of CXNN (42_alu.md R102). -/

namespace Sys2Proof

/-- DECODE_MODE (30_encoding.md R62, R63). -/
inductive DecodeMode where
  | loose
  | strict
  deriving DecidableEq, Repr

/-- UNKNOWN_OP: what an unrecognized word does (40_cycle.md R78). -/
inductive UnknownOp where
  | nop
  | fault
  deriving DecidableEq, Repr

/-- SPRITE_WRAP: which cell a sprite pixel past an edge lands on (44_display.md R110, R111). -/
inductive SpriteWrap where
  | linear
  | clip
  | axis
  deriving DecidableEq, Repr

/-- The configuration a run is constructed with (R8, R127 row Construct). The defaults are this hardware's values:
every quirk off unless the host enables it, `loose`, `nop`, `linear`. -/
structure Config where
  /-- quirk_shift_source (S), read by 8XY6 and 8XYE. -/
  shiftSource : Bool := false
  /-- quirk_jump_offset (J), which selects BXNN instead of BNNN. -/
  jumpOffset : Bool := false
  /-- quirk_index_increment (M), read by FX55 and FX65. -/
  indexIncrement : Bool := false
  /-- quirk_draw_pacing (D), read by the host only (R131). -/
  drawPacing : Bool := false
  decodeMode : DecodeMode := .loose
  unknownOp : UnknownOp := .nop
  spriteWrap : SpriteWrap := .linear
  deriving DecidableEq, Repr

/-- The bytes of memory (R8 MEM_SIZE). -/
abbrev memSize : Nat := 4096

/-- The entries of the call stack (R8 STACK_DEPTH, R25). -/
abbrev stackDepth : Nat := 16

/-- The width of the framebuffer (R8 FB_W). -/
abbrev fbWidth : Nat := 64

/-- The height of the framebuffer (R8 FB_H). -/
abbrev fbHeight : Nat := 32

/-- The cells of the framebuffer (R8, R29). -/
abbrev fbCells : Nat := 2048

/-- The first address of the font (R8 FONT_BASE). -/
abbrev fontBase : Nat := 0x050

/-- The first address of a program and the reset pc (R8 LOAD_BASE). -/
abbrev loadBase : Nat := 0x200

/-- The longest image Load takes (R8 MAX_ROM). -/
abbrev maxRom : Nat := 3584

/-- FREE VALUE (log entry 3): the random byte of the n-th CXNN of a run. It has no body, so a theorem about it holds for
every sequence of bytes (42_alu.md R102, D19). -/
opaque Config.draw : Nat → Byte

end Sys2Proof
end

