-- ==== Sys2Proof/Syntax.lean ====
section
/-! DEFINITION. The instructions: one constructor for each row of spec/opcode_table.json (30_encoding.md R64), with the
operand fields the row gives it (R60). -/

namespace Sys2Proof

/-- The 35 instructions (R64), in the order of spec/opcode_table.json. -/
inductive Instr where
  /-- 00E0 CLS (R109). -/
  | cls
  /-- 00EE RET (R81). -/
  | ret
  /-- 1NNN JP addr (R82). -/
  | jp (nnn : Addr12)
  /-- 2NNN CALL addr (R83). -/
  | call (nnn : Addr12)
  /-- 3XNN SE Vx, byte (R84). -/
  | seImm (x : Reg) (nn : Byte)
  /-- 4XNN SNE Vx, byte (R85). -/
  | sneImm (x : Reg) (nn : Byte)
  /-- 5XY0 SE Vx, Vy (R86). -/
  | seReg (x y : Reg)
  /-- 6XNN LD Vx, byte (R91). -/
  | ldImm (x : Reg) (nn : Byte)
  /-- 7XNN ADD Vx, byte (R92). -/
  | addImm (x : Reg) (nn : Byte)
  /-- 8XY0 LD Vx, Vy (R93). -/
  | ldReg (x y : Reg)
  /-- 8XY1 OR Vx, Vy (R94). -/
  | orReg (x y : Reg)
  /-- 8XY2 AND Vx, Vy (R95). -/
  | andReg (x y : Reg)
  /-- 8XY3 XOR Vx, Vy (R96). -/
  | xorReg (x y : Reg)
  /-- 8XY4 ADD Vx, Vy (R97). -/
  | addReg (x y : Reg)
  /-- 8XY5 SUB Vx, Vy (R98). -/
  | sub (x y : Reg)
  /-- 8XY6 SHR Vx, Vy (R99). -/
  | shr (x y : Reg)
  /-- 8XY7 SUBN Vx, Vy (R100). -/
  | subn (x y : Reg)
  /-- 8XYE SHL Vx, Vy (R101). -/
  | shl (x y : Reg)
  /-- 9XY0 SNE Vx, Vy (R87). -/
  | sneReg (x y : Reg)
  /-- ANNN LD I, addr (R103). -/
  | ldI (nnn : Addr12)
  /-- BNNN JP V0, addr, the reading of family B while quirk_jump_offset is off (R88). -/
  | jpV0 (nnn : Addr12)
  /-- BXNN JP Vx, addr, the reading of family B while quirk_jump_offset is on (R89). The row's two fields overlap: X is
  the top nibble of NNN, which `Instr.wellFormed` checks. -/
  | jpVx (x : Reg) (nnn : Addr12)
  /-- CXNN RND Vx, byte (R102). -/
  | rnd (x : Reg) (nn : Byte)
  /-- DXYN DRW Vx, Vy, nibble (R110). -/
  | drw (x y : Reg) (n : Nibble)
  /-- EX9E SKP Vx (R112). -/
  | skp (x : Reg)
  /-- EXA1 SKNP Vx (R113). -/
  | sknp (x : Reg)
  /-- FX07 LD Vx, DT (R114). -/
  | ldVxDt (x : Reg)
  /-- FX0A LD Vx, K (R115). -/
  | ldVxK (x : Reg)
  /-- FX15 LD DT, Vx (R116). -/
  | ldDtVx (x : Reg)
  /-- FX18 LD ST, Vx (R117). -/
  | ldStVx (x : Reg)
  /-- FX1E ADD I, Vx (R104). -/
  | addIVx (x : Reg)
  /-- FX29 LD F, Vx (R105). -/
  | ldFVx (x : Reg)
  /-- FX33 LD B, Vx (R106). -/
  | ldBVx (x : Reg)
  /-- FX55 LD [I], Vx (R107). -/
  | ldMemVx (x : Reg)
  /-- FX65 LD Vx, [I] (R108). -/
  | ldVxMem (x : Reg)
  deriving DecidableEq, Repr

end Sys2Proof
end

