-- ==== Sys2Proof/WellFormed.lean ====
section
/-! DEFINITION. Which terms of `Instr` are instructions. The types bound every operand field to its width (30_encoding.md
R60, R61); the one further check is the overlap of the fields of JP Vx, addr (R71, R89). -/

namespace Sys2Proof

/-- X of BXNN is the top nibble of NNN: R71 "must reject it unless x = addr[11:8]". -/
def topNibbleIs (x : Reg) (nnn : Addr12) : Bool :=
  nnn.extractLsb' 8 4 == BitVec.ofFin x

/-- The well-formed instructions. -/
def Instr.wellFormed : Instr → Bool
  | .jpVx x nnn => topNibbleIs x nnn
  | .cls | .ret | .jp _ | .call _ | .seImm _ _ | .sneImm _ _ | .seReg _ _ | .ldImm _ _ | .addImm _ _ | .ldReg _ _
  | .orReg _ _ | .andReg _ _ | .xorReg _ _ | .addReg _ _ | .sub _ _ | .shr _ _ | .subn _ _ | .shl _ _ | .sneReg _ _
  | .ldI _ | .jpV0 _ | .rnd _ _ | .drw _ _ _ | .skp _ | .sknp _ | .ldVxDt _ | .ldVxK _ | .ldDtVx _ | .ldStVx _
  | .addIVx _ | .ldFVx _ | .ldBVx _ | .ldMemVx _ | .ldVxMem _ => true

end Sys2Proof
end

