-- ==== Sys2Proof/Decode.lean ====
section
/-! DEFINITION. Fields, decoder and encoder (30_encoding.md). An instruction is one 16-bit word, fetched big-endian
(R48, R59). The decoder follows the dispatch of R62 (`loose`) and R63 (`strict`) and rejects every word of R69 by name;
the encoder and the mask and match of a row are written from R64 and spec/opcode_table.json. -/

namespace Sys2Proof

/-! ### Fields (R60) -/

def fieldF (w : Word) : Nibble := w.extractLsb' 12 4

def fieldX (w : Word) : Reg := (w.extractLsb' 8 4).toFin

def fieldY (w : Word) : Reg := (w.extractLsb' 4 4).toFin

def fieldN (w : Word) : Nibble := w.extractLsb' 0 4

def fieldNN (w : Word) : Byte := w.extractLsb' 0 8

def fieldNNN (w : Word) : Addr12 := w.extractLsb' 0 12

/-! ### Decoding -/

/-- Why bytes are no instruction: fewer than two of them, or a word of R69. -/
inductive DecodeReject where
  /-- Fewer than two bytes. -/
  | truncated
  /-- Family 0 with N neither 0 nor E; in strict mode every family-0 word but 00E0 and 00EE (R63, R65, R69). -/
  | family0
  /-- Strict mode: 5XYn with n other than 0 (R63). -/
  | family5
  /-- Family 8 with N one of 8, 9, A, B, C, D, F (R66). -/
  | family8
  /-- Strict mode: 9XYn with n other than 0 (R63). -/
  | family9
  /-- Family E with NN neither 9E nor A1 (R67). -/
  | familyE
  /-- Family F with NN none of the nine values of R68. -/
  | familyF
  deriving DecidableEq, Repr

/-- Family 0 (R63, R65): by the low nibble alone in loose mode, by the whole word in strict mode. -/
def decodeFamily0 (mode : DecodeMode) (w : Word) : Except DecodeReject Instr :=
  match mode with
  | .loose =>
    if fieldN w = 0x0 then .ok .cls
    else if fieldN w = 0xE then .ok .ret
    else .error .family0
  | .strict =>
    if w = 0x00E0 then .ok .cls
    else if w = 0x00EE then .ok .ret
    else .error .family0

/-- Families 5 and 9 (R62, R63): the low nibble is ignored in loose mode and must be 0 in strict mode. -/
def decodeXY0 (mode : DecodeMode) (w : Word) (i : Instr) (why : DecodeReject) : Except DecodeReject Instr :=
  match mode with
  | .loose => .ok i
  | .strict => if fieldN w = 0x0 then .ok i else .error why

/-- Family 8 (R66). -/
def decodeFamily8 (w : Word) : Except DecodeReject Instr :=
  let x := fieldX w
  let y := fieldY w
  match (fieldN w).toNat with
  | 0x0 => .ok (.ldReg x y)
  | 0x1 => .ok (.orReg x y)
  | 0x2 => .ok (.andReg x y)
  | 0x3 => .ok (.xorReg x y)
  | 0x4 => .ok (.addReg x y)
  | 0x5 => .ok (.sub x y)
  | 0x6 => .ok (.shr x y)
  | 0x7 => .ok (.subn x y)
  | 0xE => .ok (.shl x y)
  | _ => .error .family8

/-- Family B (R64, R70): one encoding; quirk_jump_offset says which of the table's two rows it is. -/
def decodeFamilyB (jumpOffset : Bool) (w : Word) : Instr :=
  if jumpOffset then .jpVx (fieldX w) (fieldNNN w) else .jpV0 (fieldNNN w)

/-- Family E (R67). -/
def decodeFamilyE (w : Word) : Except DecodeReject Instr :=
  if fieldNN w = 0x9E then .ok (.skp (fieldX w))
  else if fieldNN w = 0xA1 then .ok (.sknp (fieldX w))
  else .error .familyE

/-- Family F (R68). -/
def decodeFamilyF (w : Word) : Except DecodeReject Instr :=
  let x := fieldX w
  if fieldNN w = 0x07 then .ok (.ldVxDt x)
  else if fieldNN w = 0x0A then .ok (.ldVxK x)
  else if fieldNN w = 0x15 then .ok (.ldDtVx x)
  else if fieldNN w = 0x18 then .ok (.ldStVx x)
  else if fieldNN w = 0x1E then .ok (.addIVx x)
  else if fieldNN w = 0x29 then .ok (.ldFVx x)
  else if fieldNN w = 0x33 then .ok (.ldBVx x)
  else if fieldNN w = 0x55 then .ok (.ldMemVx x)
  else if fieldNN w = 0x65 then .ok (.ldVxMem x)
  else .error .familyF

/-- `decode(word, DECODE_MODE)` (R62 to R64, R75). `jumpOffset` is quirk_jump_offset, the condition of the two rows of
family B (log entry 5). -/
def decodeWord (mode : DecodeMode) (jumpOffset : Bool) (w : Word) : Except DecodeReject Instr :=
  match (fieldF w).toNat with
  | 0x0 => decodeFamily0 mode w
  | 0x1 => .ok (.jp (fieldNNN w))
  | 0x2 => .ok (.call (fieldNNN w))
  | 0x3 => .ok (.seImm (fieldX w) (fieldNN w))
  | 0x4 => .ok (.sneImm (fieldX w) (fieldNN w))
  | 0x5 => decodeXY0 mode w (.seReg (fieldX w) (fieldY w)) .family5
  | 0x6 => .ok (.ldImm (fieldX w) (fieldNN w))
  | 0x7 => .ok (.addImm (fieldX w) (fieldNN w))
  | 0x8 => decodeFamily8 w
  | 0x9 => decodeXY0 mode w (.sneReg (fieldX w) (fieldY w)) .family9
  | 0xA => .ok (.ldI (fieldNNN w))
  | 0xB => .ok (decodeFamilyB jumpOffset w)
  | 0xC => .ok (.rnd (fieldX w) (fieldNN w))
  | 0xD => .ok (.drw (fieldX w) (fieldY w) (fieldN w))
  | 0xE => decodeFamilyE w
  | _ => decodeFamilyF w

/-- Two bytes as a word, the first one high (R48). -/
def wordOfBytes (hi lo : Byte) : Word := hi ++ lo

/-- The decoder on bytes: one instruction and the bytes after it, or the reason there is none. -/
def decodeBytes (mode : DecodeMode) (jumpOffset : Bool) : List Byte → Except DecodeReject (Instr × List Byte)
  | hi :: lo :: rest =>
    match decodeWord mode jumpOffset (wordOfBytes hi lo) with
    | .ok i => .ok (i, rest)
    | .error e => .error e
  | _ => .error .truncated

/-! ### Encoding (R60, R64) -/

/-- A word of the shape F, X, Y, N. -/
def wordXYN (f : Nibble) (x y : Reg) (n : Nibble) : Word :=
  f ++ (BitVec.ofFin x : Nibble) ++ (BitVec.ofFin y : Nibble) ++ n

/-- A word of the shape F, X, NN. -/
def wordXNN (f : Nibble) (x : Reg) (nn : Byte) : Word := f ++ (BitVec.ofFin x : Nibble) ++ nn

/-- A word of the shape F, NNN. -/
def wordNNN (f : Nibble) (nnn : Addr12) : Word := f ++ nnn

/-- The word of an instruction, by the patterns of R64 (the ignored nibbles of a loose form are the pattern's own). -/
def encode : Instr → Word
  | .cls => 0x00E0
  | .ret => 0x00EE
  | .jp nnn => wordNNN 0x1 nnn
  | .call nnn => wordNNN 0x2 nnn
  | .seImm x nn => wordXNN 0x3 x nn
  | .sneImm x nn => wordXNN 0x4 x nn
  | .seReg x y => wordXYN 0x5 x y 0x0
  | .ldImm x nn => wordXNN 0x6 x nn
  | .addImm x nn => wordXNN 0x7 x nn
  | .ldReg x y => wordXYN 0x8 x y 0x0
  | .orReg x y => wordXYN 0x8 x y 0x1
  | .andReg x y => wordXYN 0x8 x y 0x2
  | .xorReg x y => wordXYN 0x8 x y 0x3
  | .addReg x y => wordXYN 0x8 x y 0x4
  | .sub x y => wordXYN 0x8 x y 0x5
  | .shr x y => wordXYN 0x8 x y 0x6
  | .subn x y => wordXYN 0x8 x y 0x7
  | .shl x y => wordXYN 0x8 x y 0xE
  | .sneReg x y => wordXYN 0x9 x y 0x0
  | .ldI nnn => wordNNN 0xA nnn
  | .jpV0 nnn => wordNNN 0xB nnn
  | .jpVx _ nnn => wordNNN 0xB nnn
  | .rnd x nn => wordXNN 0xC x nn
  | .drw x y n => wordXYN 0xD x y n
  | .skp x => wordXNN 0xE x 0x9E
  | .sknp x => wordXNN 0xE x 0xA1
  | .ldVxDt x => wordXNN 0xF x 0x07
  | .ldVxK x => wordXNN 0xF x 0x0A
  | .ldDtVx x => wordXNN 0xF x 0x15
  | .ldStVx x => wordXNN 0xF x 0x18
  | .addIVx x => wordXNN 0xF x 0x1E
  | .ldFVx x => wordXNN 0xF x 0x29
  | .ldBVx x => wordXNN 0xF x 0x33
  | .ldMemVx x => wordXNN 0xF x 0x55
  | .ldVxMem x => wordXNN 0xF x 0x65

/-- The bytes of a word as memory holds them, the high byte first (R48). -/
def bytesOfWord (w : Word) : List Byte := [w.extractLsb' 8 8, w.extractLsb' 0 8]

/-- The bytes of an instruction. -/
def encodeBytes (i : Instr) : List Byte := bytesOfWord (encode i)

/-- The `condition` of a row of spec/opcode_table.json: the two rows of family B hold under one value of
quirk_jump_offset each, every other row under both (R70). -/
def Instr.selected (jumpOffset : Bool) : Instr → Bool
  | .jpV0 _ => !jumpOffset
  | .jpVx _ _ => jumpOffset
  | _ => true

/-- `mask` of the row, `strict_mask` in strict mode where the row has one (R63, R64). -/
def Instr.mask (mode : DecodeMode) : Instr → Word
  | .cls | .ret => match mode with
    | .loose => 0xF00F
    | .strict => 0xFFFF
  | .seReg _ _ | .sneReg _ _ => match mode with
    | .loose => 0xF000
    | .strict => 0xF00F
  | .ldReg _ _ | .orReg _ _ | .andReg _ _ | .xorReg _ _ | .addReg _ _ | .sub _ _ | .shr _ _ | .subn _ _ | .shl _ _ => 0xF00F
  | .skp _ | .sknp _ | .ldVxDt _ | .ldVxK _ | .ldDtVx _ | .ldStVx _ | .addIVx _ | .ldFVx _ | .ldBVx _ | .ldMemVx _
  | .ldVxMem _ => 0xF0FF
  | .jp _ | .call _ | .seImm _ _ | .sneImm _ _ | .ldImm _ _ | .addImm _ _ | .ldI _ | .jpV0 _ | .jpVx _ _ | .rnd _ _
  | .drw _ _ _ => 0xF000

/-- `match` of the row, `strict_match` in strict mode where the row has one (R63, R64). -/
def Instr.pattern (mode : DecodeMode) : Instr → Word
  | .cls => match mode with
    | .loose => 0x0000
    | .strict => 0x00E0
  | .ret => match mode with
    | .loose => 0x000E
    | .strict => 0x00EE
  | .jp _ => 0x1000
  | .call _ => 0x2000
  | .seImm _ _ => 0x3000
  | .sneImm _ _ => 0x4000
  | .seReg _ _ => 0x5000
  | .ldImm _ _ => 0x6000
  | .addImm _ _ => 0x7000
  | .ldReg _ _ => 0x8000
  | .orReg _ _ => 0x8001
  | .andReg _ _ => 0x8002
  | .xorReg _ _ => 0x8003
  | .addReg _ _ => 0x8004
  | .sub _ _ => 0x8005
  | .shr _ _ => 0x8006
  | .subn _ _ => 0x8007
  | .shl _ _ => 0x800E
  | .sneReg _ _ => 0x9000
  | .ldI _ => 0xA000
  | .jpV0 _ => 0xB000
  | .jpVx _ _ => 0xB000
  | .rnd _ _ => 0xC000
  | .drw _ _ _ => 0xD000
  | .skp _ => 0xE09E
  | .sknp _ => 0xE0A1
  | .ldVxDt _ => 0xF007
  | .ldVxK _ => 0xF00A
  | .ldDtVx _ => 0xF015
  | .ldStVx _ => 0xF018
  | .addIVx _ => 0xF01E
  | .ldFVx _ => 0xF029
  | .ldBVx _ => 0xF033
  | .ldMemVx _ => 0xF055
  | .ldVxMem _ => 0xF065

/-- What the decoder of this hardware (loose, every quirk off) reads from the instruction whose bits are `w`: its one
word laid out as memory holds it, high byte first. -/
def decodeTableWord (nbits w : Nat) : Option Instr :=
  match decodeBytes .loose false (bytesOfWord (BitVec.ofNat 16 (w % 2 ^ nbits))) with
  | .ok (i, _) => some i
  | .error _ => none

end Sys2Proof
end

