-- ==== Sys2Proof/Machine/State.lean ====
section
/-! DEFINITION. The state block of the core (10_state.md R15), why a step can stop, and the state after reset (R39). -/

namespace Sys2Proof.Machine

/-- The framebuffer by rows: cell x + 64 y (R29) is bit x of row y (log entry 11). -/
abbrev Frame := Vector (BitVec 64) 32

/-- Memory as a list of the addresses that hold something other than what they read as unlisted, strictly rising
(Memory.unlisted and Memory.wf in Ops.lean; 20_memory.md R41). -/
abbrev Memory := List Host.Cell

/-- The fault codes of 60_exceptions.md R119. -/
inductive FaultCode where
  /-- NONE: no fault recorded. -/
  | noFault
  /-- STACK_UNDERFLOW, raised by 00EE with an empty stack. -/
  | stackUnderflow
  /-- STACK_OVERFLOW, raised by 2NNN with a full stack. -/
  | stackOverflow
  /-- FETCH_OUT_OF_RANGE, raised by a fetch that touches address 4096 or above. -/
  | fetchOutOfRange
  /-- DATA_OUT_OF_RANGE, raised by DXYN, FX33, FX55, FX65 when an access is at 4096 or above. -/
  | dataOutOfRange
  /-- KEY_OUT_OF_RANGE, raised by EX9E and EXA1 when VX is 16 or more. -/
  | keyOutOfRange
  /-- UNKNOWN_OPCODE, raised by an unrecognized word under UNKNOWN_OP = fault. -/
  | unknownOpcode
  deriving DecidableEq, Repr

/-- The fault record (10_state.md R34). -/
structure FaultRecord where
  /-- `fault`. -/
  code : FaultCode
  /-- `fault_pc`, the address of the faulting instruction. -/
  pc : Word
  /-- `fault_op`, the opcode if it was fetched. -/
  op : Option Word
  /-- `fault_addr`, the offending memory address or key index. -/
  addr : Option Nat
  deriving DecidableEq, Repr

/-- The record while no fault has been raised (R39: "other fields none or 0"). -/
def FaultRecord.empty : FaultRecord := { code := .noFault, pc := 0, op := none, addr := none }

/-- The state block (R15) with the configuration of the run (R31) and the model's own count of random draws. -/
structure State where
  /-- Quirks and parameters, fixed for the run (R31, R139). -/
  cfg : Config
  /-- 4096 bytes (R41). -/
  mem : Memory
  /-- V0 to VF (R16). -/
  v : Vector Byte 16
  /-- The index register (R19). -/
  i : Word
  /-- The program counter (R21). -/
  pc : Word
  /-- The call stack, its top last (R25, R26). -/
  stack : List Word
  /-- The delay timer (R27). -/
  dt : Byte
  /-- The sound timer (R28). -/
  st : Byte
  /-- The framebuffer (R29). -/
  fb : Frame
  /-- The key state (R30). -/
  key : Vector Bool 16
  /-- The most recently fetched word (R32). -/
  opcode : Word
  /-- The frame dirty flag (R33). -/
  dirty : Bool
  /-- Whether the last completed Step executed DXYN (R33). -/
  drew : Bool
  /-- The fault record (R34). -/
  fault : FaultRecord
  /-- An unrecognized word has been executed as a no-op (R35). -/
  unkSeen : Bool
  /-- The last such word (R35). -/
  unkLast : Word
  /-- A Load has succeeded (R37). -/
  loaded : Bool
  /-- The model's own: how many random bytes CXNN has drawn (log entry 3). -/
  draws : Nat
  deriving DecidableEq, Repr

/-- Why the model stops. The faults of R119 are NOT here: they leave a state the spec describes, so they are next states
(log entry 1). -/
inductive Fault where
  /-- Raised by `step` while `loaded` = false: R73, R80 and R127 give a Step no transition before a successful Load.
  Safe: the machine has no run there (log entry 2). -/
  | stepNotAdmitted
  deriving DecidableEq, Repr

/-- Instructions without a meaning. -/
inductive Refusal where
  /-- Raised by an arm of `exec` whose instruction has no meaning yet. Safe: nothing is claimed of it. No arm does so now. -/
  | notModelled (mnemonic : String)
  deriving DecidableEq, Repr

/-- The state after construction, with this hardware's parameters and every quirk off (R39, R138). Memory lists nothing:
unlisted addresses read as zero and as the font. -/
def State.reset : State where
  cfg := {}
  mem := []
  v := Vector.replicate 16 0
  i := 0
  pc := 0x0200
  stack := []
  dt := 0
  st := 0
  fb := Vector.replicate 32 0
  key := Vector.replicate 16 false
  opcode := 0
  dirty := false
  drew := false
  fault := FaultRecord.empty
  unkSeen := false
  unkLast := 0
  loaded := false
  draws := 0

end Sys2Proof.Machine
end

