-- ==== Sys2Proof/Machine/Ops.lean ====
section
/-! DEFINITION. The named operations on the state: memory (20_memory.md), registers, the call stack (10_state.md R26),
fetch (40_cycle.md R74), raising a fault and discarding the step (R77, 60_exceptions.md R118), and what an unrecognized
word does (R78). -/

namespace Sys2Proof.Machine

/-! ### Memory (R41 to R52) -/

/-- The conventional font (R47, from general knowledge K1; log entry 6): 16 glyphs of 5 bytes. -/
def conventionalFont : Vector Byte 80 := #v[
  0xF0, 0x90, 0x90, 0x90, 0xF0,
  0x20, 0x60, 0x20, 0x20, 0x70,
  0xF0, 0x10, 0xF0, 0x80, 0xF0,
  0xF0, 0x10, 0xF0, 0x10, 0xF0,
  0x90, 0x90, 0xF0, 0x10, 0x10,
  0xF0, 0x80, 0xF0, 0x10, 0xF0,
  0xF0, 0x80, 0xF0, 0x90, 0xF0,
  0xF0, 0x10, 0x20, 0x40, 0x40,
  0xF0, 0x90, 0xF0, 0x90, 0xF0,
  0xF0, 0x90, 0xF0, 0x10, 0xF0,
  0xF0, 0x90, 0xF0, 0x90, 0x90,
  0xE0, 0x90, 0xE0, 0x90, 0xE0,
  0xF0, 0x80, 0x80, 0x80, 0xF0,
  0xE0, 0x90, 0x90, 0x90, 0xE0,
  0xF0, 0x80, 0xF0, 0x80, 0xF0,
  0xF0, 0x80, 0xF0, 0x80, 0x80]

/-- What an address that memory does not list reads as: the font at 0x050 to 0x09F, zero elsewhere (R39, R43, R47). -/
def Memory.unlisted (a : Nat) : Byte :=
  if h : fontBase ≤ a ∧ a < fontBase + 80 then conventionalFont[a - fontBase]'(by omega) else 0

/-- MemRead(a, 1) of R12, for the addresses below 4096 that every caller has checked (log entry 8). -/
def Memory.read : Memory → Nat → Byte
  | [], a => Memory.unlisted a
  | c :: m, a => if c.1 = a then c.2 else Memory.read m a

/-- Puts a byte in its place of a rising list. -/
def Memory.insert : Memory → Nat → Byte → Memory
  | [], a, b => [(a, b)]
  | c :: m, a, b =>
    if a < c.1 then (a, b) :: c :: m
    else if c.1 = a then (a, b) :: m
    else c :: Memory.insert m a b

/-- Takes an address off the list. -/
def Memory.erase : Memory → Nat → Memory
  | [], _ => []
  | c :: m, a => if c.1 = a then m else c :: Memory.erase m a

/-- MemWrite(a, 1, v) of R12. A byte equal to what the address reads as unlisted is not listed. -/
def Memory.write (m : Memory) (a : Nat) (b : Byte) : Memory :=
  if b = Memory.unlisted a then Memory.erase m a else Memory.insert m a b

/-- The bytes of a list at consecutive addresses. -/
def Memory.writeList : Memory → Nat → List Byte → Memory
  | m, _, [] => m
  | m, a, b :: bs => Memory.writeList (Memory.write m a b) (a + 1) bs

/-- The canonical form from address `lo` on: strictly rising, below 4096, nothing equal to its unlisted value. -/
def Memory.wfFrom : Nat → Memory → Bool
  | _, [] => true
  | lo, c :: m => decide (lo ≤ c.1) && decide (c.1 < memSize) && decide (c.2 ≠ Memory.unlisted c.1) && Memory.wfFrom (c.1 + 1) m

/-- The canonical form of memory. -/
def Memory.wf (m : Memory) : Bool := Memory.wfFrom 0 m

/-- Whether `n` accesses at consecutive addresses from `a` all stay inside [0, 4096) (R42). -/
def inMemory (a n : Nat) : Bool := decide (a + n ≤ memSize)

/-- What a data fault records: max(I, 0x1000), the first address at or above 4096 (R119). -/
def firstOutside (a : Nat) : Nat := max a memSize

/-! ### General registers, I and pc (R16, R19, R21) -/

/-- V[r]. -/
def State.getV (s : State) (r : Reg) : Byte := s.v[r]

/-- V[r] <- b. No register is hardwired (R16). -/
def State.setV (s : State) (r : Reg) (b : Byte) : State := { s with v := s.v.set r b }

/-- I <- a. -/
def State.setI (s : State) (a : Word) : State := { s with i := a }

/-- pc <- a. -/
def State.setPc (s : State) (a : Word) : State := { s with pc := a }

/-- `skip` of R12: pc <- pc + 2. -/
def State.skip (s : State) : State := s.setPc (s.pc + 2)

/-- A skip on a condition. -/
def State.skipIf (s : State) (c : Bool) : State := if c then s.skip else s

/-! ### The framebuffer (R29) -/

/-- fb[k], for a cell k = x + 64 y. -/
def Frame.pixel (f : Frame) (k : Fin 2048) : Bool := (f[k.val / 64]'(by omega)).getLsbD (k.val % 64)

/-- fb[k] <- not fb[k]. -/
def Frame.toggle (f : Frame) (k : Fin 2048) : Frame :=
  f.set (k.val / 64) (f[k.val / 64]'(by omega) ^^^ BitVec.twoPow 64 (k.val % 64)) (by omega)

/-- fb[k] <- false for every cell (R109). -/
def Frame.clear : Frame := Vector.replicate 32 0

/-! ### The call stack (R25, R26) -/

/-- push(v): none when the stack is full, the caller then raises STACK_OVERFLOW. -/
def State.push (s : State) (a : Word) : Option State :=
  if s.stack.length < stackDepth then some { s with stack := s.stack ++ [a] } else none

/-- pop(): none when the stack is empty, the caller then raises STACK_UNDERFLOW. -/
def State.pop (s : State) : Option (Word × State) :=
  match s.stack.getLast? with
  | some a => some (a, { s with stack := s.stack.dropLast })
  | none => none

/-! ### Faults (R77, R118, R119) -/

/-- What a meaning answers. -/
abbrev Result := Host.Outcome State Fault Refusal

/-- `raise Fault(code, info)` in the execute phase, where pc = A + 2 and `opcode` is the fetched word: writes the fault
record (R77). `State.commit` then discards everything else of the step. -/
def State.raise (s : State) (code : FaultCode) (info : Option Nat) : State :=
  { s with fault := { code := code, pc := s.pc - 2, op := some s.opcode, addr := info } }

/-- The end of a step (R77, R80): a step that raised a fault leaves the state before it with the fault record, any other
leaves the state it computed. -/
def State.commit (before after : State) : State :=
  if after.fault.code = .noFault then after else { before with fault := after.fault }

/-- `State.commit` on what a meaning answers. -/
def commitResult (before : State) : Result → Result
  | .next after => .next (before.commit after)
  | .fault r => .fault r
  | .refused r => .refused r

/-! ### Fetch (R49, R74) -/

/-- The word at pc, big-endian (R48). -/
def State.fetchWord (s : State) : Word := wordOfBytes (s.mem.read s.pc.toNat) (s.mem.read (s.pc.toNat + 1))

/-- Whether both bytes of the word at pc are inside memory (R49). -/
def State.canFetch (s : State) : Bool := inMemory s.pc.toNat 2

/-- The state after a fetch that faults: only the record changes; it holds no opcode, and the first address at or above
4096 (R49, R77, R119). -/
def State.raiseFetch (s : State) : State :=
  { s with fault := { code := .fetchOutOfRange, pc := s.pc, op := none, addr := some (firstOutside s.pc.toNat) } }

/-- Whether an instruction is DXYN, for `drew` (R33). -/
def isDraw : Instr → Bool
  | .drw _ _ _ => true
  | _ => false

/-- The state the execute phase starts in (R74, R80): the word is latched, pc is past it, `drew` says whether the
instruction is DXYN. -/
def State.fetched (s : State) (draw : Bool) : State :=
  { s with opcode := s.fetchWord, pc := s.pc + 2, drew := draw }

/-- What the decoder of this run reads at pc (R75). -/
def State.decoded (s : State) : Except DecodeReject Instr :=
  decodeWord s.cfg.decodeMode s.cfg.jumpOffset s.fetchWord

/-- UNRECOGNIZED (R78), in the execute phase. -/
def execUnrecognized (s : State) : Result :=
  match s.cfg.unknownOp with
  | .nop => .next { s with unkSeen := true, unkLast := s.opcode }
  | .fault => .next (s.raise .unknownOpcode none)

/-! ### Placing an instruction -/

/-- The state in which the next step fetches the word `w`: the word stands at pc and a Load has taken place, which is
what R73 asks of a Step (log entry 7). A pc with no room for a word before 4096 has no place for one. -/
def State.placeWord (s : State) (w : Word) : State :=
  if s.canFetch then { s with mem := s.mem.writeList s.pc.toNat (bytesOfWord w), loaded := true } else s

end Sys2Proof.Machine
end

