-- ==== Sys2Proof/Machine/Operands.lean ====
section
/-! DEFINITION. Operand forms (30_encoding.md R61; 00_scope.md R11): zero extension to 16 bits, the registers V0 to VX of
FX55 and FX65, the source of a shift, the target of a jump with offset, and the key an instruction names. -/

namespace Sys2Proof.Machine

/-- zext_16 of a byte. -/
def zextByte (b : Byte) : Word := b.setWidth 16

/-- zext_16 of NNN. -/
def zextAddr (nnn : Addr12) : Word := nnn.setWidth 16

/-- The registers V0 to VX in ascending order (R18, R107, R108). -/
def regsUpTo (x : Reg) : List Reg := (List.finRange 16).filter (fun r => decide (r ≤ x))

/-- The operand of a shift: VY under quirk_shift_source, VX without it (R99, R101). -/
def shiftOperand (s : State) (x y : Reg) : Byte := if s.cfg.shiftSource then s.getV y else s.getV x

/-- The target of BNNN and BXNN: zext_16(NNN) + zext_16(V[r]) (R88, R89). -/
def offsetTarget (s : State) (nnn : Addr12) (r : Reg) : Word := zextAddr nnn + zextByte (s.getV r)

/-- The key V[x] names, none when it is 16 or more (R112, R113). -/
def keyOperand (s : State) (x : Reg) : Option Key :=
  if h : (s.getV x).toNat < 16 then some ⟨(s.getV x).toNat, h⟩ else none

/-- The lowest-numbered pressed key, if any key is pressed (R115). -/
def lowestPressed (s : State) : Option Key := (List.finRange 16).find? (fun k => s.key[k])

/-- The address I as an exact integer (R42). -/
def indexAddr (s : State) : Nat := s.i.toNat

end Sys2Proof.Machine
end

