-- ==== Sys2Proof/Machine/Flags.lean ====
section
/-! DEFINITION. The flags VF receives (10_state.md R17) and the order in which a result and its flag are written
(42_alu.md R90). -/

namespace Sys2Proof.Machine

/-- A flag as the byte VF holds. -/
def flagByte (c : Bool) : Byte := if c then 1 else 0

/-- Carry out of an 8-bit addition: a + b > 255 (R97). -/
def carryOut (a b : Byte) : Bool := decide (a.toNat + b.toNat > 255)

/-- Not borrow of a - b: a at least b (R98, R100). -/
def notBorrow (a b : Byte) : Bool := decide (b.toNat ≤ a.toNat)

/-- The bit a right shift by one moves out (R99). -/
def lowBit (a : Byte) : Bool := a.getLsbD 0

/-- The bit a left shift by one moves out (R101). -/
def highBit (a : Byte) : Bool := a.getLsbD 7

/-- Whether a sum leaves the 12-bit range of I (R104). -/
def indexOverflow (sum : Word) : Bool := decide (sum.toNat > 0x0FFF)

/-- R90: V[X] <- res, then VF <- flag, so that VF holds the flag when X = F. -/
def State.writeWithFlag (s : State) (x : Reg) (res : Byte) (flag : Bool) : State :=
  (s.setV x res).setV VF (flagByte flag)

end Sys2Proof.Machine
end

