-- ==== Sys2Proof/Machine/Alu.lean ====
section
/-! DEFINITION. Register loads, the ALU and the random byte (42_alu.md). -/

namespace Sys2Proof.Machine

/-- 6XNN LD Vx, byte (R91). -/
def execLdImm (x : Reg) (nn : Byte) (s : State) : Result := .next (s.setV x nn)

/-- 7XNN ADD Vx, byte: modulo 256, no flag (R92). -/
def execAddImm (x : Reg) (nn : Byte) (s : State) : Result := .next (s.setV x (s.getV x + nn))

/-- 8XY0 LD Vx, Vy (R93). -/
def execLdReg (x y : Reg) (s : State) : Result := .next (s.setV x (s.getV y))

/-- 8XY1 OR Vx, Vy: VF is not reset (R94). -/
def execOrReg (x y : Reg) (s : State) : Result := .next (s.setV x (s.getV x ||| s.getV y))

/-- 8XY2 AND Vx, Vy: VF is not reset (R95). -/
def execAndReg (x y : Reg) (s : State) : Result := .next (s.setV x (s.getV x &&& s.getV y))

/-- 8XY3 XOR Vx, Vy: VF is not reset (R96). -/
def execXorReg (x y : Reg) (s : State) : Result := .next (s.setV x (s.getV x ^^^ s.getV y))

/-- 8XY4 ADD Vx, Vy, VF the carry (R97). -/
def execAddReg (x y : Reg) (s : State) : Result :=
  .next (s.writeWithFlag x (s.getV x + s.getV y) (carryOut (s.getV x) (s.getV y)))

/-- 8XY5 SUB Vx, Vy: VX - VY, VF not borrow (R98). -/
def execSub (x y : Reg) (s : State) : Result :=
  .next (s.writeWithFlag x (s.getV x - s.getV y) (notBorrow (s.getV x) (s.getV y)))

/-- 8XY6 SHR Vx, Vy, VF the low bit of the source (R99). -/
def execShr (x y : Reg) (s : State) : Result :=
  .next (s.writeWithFlag x (shiftOperand s x y >>> 1) (lowBit (shiftOperand s x y)))

/-- 8XY7 SUBN Vx, Vy: VY - VX, VF not borrow (R100). -/
def execSubn (x y : Reg) (s : State) : Result :=
  .next (s.writeWithFlag x (s.getV y - s.getV x) (notBorrow (s.getV y) (s.getV x)))

/-- 8XYE SHL Vx, Vy, VF the high bit of the source (R101). -/
def execShl (x y : Reg) (s : State) : Result :=
  .next (s.writeWithFlag x (shiftOperand s x y <<< 1) (highBit (shiftOperand s x y)))

/-- CXNN RND Vx, byte (R102): the next random byte, a free value, masked by NN (log entry 3). -/
def execRnd (x : Reg) (nn : Byte) (s : State) : Result :=
  .next { s.setV x (Config.draw s.draws &&& nn) with draws := s.draws + 1 }

end Sys2Proof.Machine
end

