-- ==== Sys2Proof/Machine/Display.lean ====
section
/-! DEFINITION. The framebuffer instructions (44_display.md). -/

namespace Sys2Proof.Machine

/-- 00E0 CLS (R109): every cell off, `dirty` raised. -/
def execCls (s : State) : Result := .next { s with fb := Frame.clear, dirty := true }

/-- The cell of the pixel at column x and row y, counted from the reduced origin without wrapping (R110, R111): modulo
2048 over the whole buffer, none past an edge, or modulo each axis. -/
def spriteCell (wrap : SpriteWrap) (x y : Nat) : Option (Fin 2048) :=
  match wrap with
  | .linear => some ⟨(x + y * 64) % 2048, Nat.mod_lt _ (by decide)⟩
  | .clip => if h : x < 64 ∧ y < 32 then some ⟨x + 64 * y, by omega⟩ else none
  | .axis => some ⟨x % 64 + 64 * (y % 32), by omega⟩

/-- Whether bit 7 - c of a sprite row, its pixel in column c, is set (R110: most-significant bit first). -/
def rowPixel (row : Byte) (c : Nat) : Bool := row.getLsbD (7 - c)

/-- The framebuffer under drawing, and whether a pixel has been turned off so far (`hit`). -/
abbrev Canvas := Frame × Bool

/-- XORs one pixel that is set into a cell (R110). -/
def xorCell (p : Canvas) (k : Fin 2048) : Canvas := (Frame.toggle p.1 k, p.2 || Frame.pixel p.1 k)

/-- The cells the set pixels of one sprite row fall on, left to right. -/
def rowCells (wrap : SpriteWrap) (row : Byte) (x y : Nat) : List (Fin 2048) :=
  (List.range 8).filterMap (fun c => if rowPixel row c then spriteCell wrap (x + c) y else none)

/-- The cells the set pixels of a sprite fall on, row by row: N rows read from address `a` on, the origin (x, y). -/
def spriteCells (wrap : SpriteWrap) (m : Memory) (a x y n : Nat) : List (Fin 2048) :=
  (List.range n).flatMap (fun r => rowCells wrap (m.read (a + r)) x (y + r))

/-- The cells DXYN toggles in a state: origin (VX mod 64, VY mod 32), rows at I (R110). -/
def drawCells (s : State) (x y : Reg) (n : Nibble) : List (Fin 2048) :=
  spriteCells s.cfg.spriteWrap s.mem (indexAddr s) ((s.getV x).toNat % 64) ((s.getV y).toNat % 32) n.toNat

/-- The framebuffer and `hit` after DXYN. -/
def drawCanvas (s : State) (x y : Reg) (n : Nibble) : Canvas := (drawCells s x y n).foldl xorCell (s.fb, false)

/-- Whether DXYN reads only inside memory (R110): nothing is read when N = 0. -/
def spriteInMemory (s : State) (n : Nibble) : Bool := n == 0 || inMemory (indexAddr s) n.toNat

/-- DXYN DRW Vx, Vy, nibble (R110, R111): VF receives `hit` after the coordinates are read. -/
def execDrw (x y : Reg) (n : Nibble) (s : State) : Result :=
  if spriteInMemory s n then
    .next (State.setV { s with fb := (drawCanvas s x y n).1, dirty := true } VF (flagByte (drawCanvas s x y n).2))
  else .next (s.raise .dataOutOfRange (some (firstOutside (indexAddr s))))

end Sys2Proof.Machine
end

