-- ==== Sys2Proof/Machine/Flow.lean ====
section
/-! DEFINITION. Control flow: jumps, calls, returns and skips (41_flow.md). Every meaning starts with pc past its word
(40_cycle.md R74). -/

namespace Sys2Proof.Machine

/-- 00EE RET (R81). -/
def execRet (s : State) : Result :=
  match s.pop with
  | some (a, t) => .next (t.setPc a)
  | none => .next (s.raise .stackUnderflow none)

/-- 1NNN JP addr (R82). -/
def execJp (nnn : Addr12) (s : State) : Result := .next (s.setPc (zextAddr nnn))

/-- 2NNN CALL addr (R83). -/
def execCall (nnn : Addr12) (s : State) : Result :=
  match s.push s.pc with
  | some t => .next (t.setPc (zextAddr nnn))
  | none => .next (s.raise .stackOverflow none)

/-- 3XNN SE Vx, byte (R84). -/
def execSeImm (x : Reg) (nn : Byte) (s : State) : Result := .next (s.skipIf (s.getV x == nn))

/-- 4XNN SNE Vx, byte (R85). -/
def execSneImm (x : Reg) (nn : Byte) (s : State) : Result := .next (s.skipIf (s.getV x != nn))

/-- 5XY0 SE Vx, Vy (R86). -/
def execSeReg (x y : Reg) (s : State) : Result := .next (s.skipIf (s.getV x == s.getV y))

/-- 9XY0 SNE Vx, Vy (R87). -/
def execSneReg (x y : Reg) (s : State) : Result := .next (s.skipIf (s.getV x != s.getV y))

/-- BNNN JP V0, addr (R88). -/
def execJpV0 (nnn : Addr12) (s : State) : Result := .next (s.setPc (offsetTarget s nnn 0))

/-- BXNN JP Vx, addr (R89): the base is the full NNN, X nibble included. -/
def execJpVx (x : Reg) (nnn : Addr12) (s : State) : Result := .next (s.setPc (offsetTarget s nnn x))

end Sys2Proof.Machine
end

