-- ==== Sys2Proof/Machine/Index.lean ====
section
/-! DEFINITION. The index register and memory transfers (43_index_memory.md). Every address is checked before any write
(40_cycle.md R77). -/

namespace Sys2Proof.Machine

/-- ANNN LD I, addr (R103). -/
def execLdI (nnn : Addr12) (s : State) : Result := .next (s.setI (zextAddr nnn))

/-- FX1E ADD I, Vx (R104): on a sum above 0x0FFF, I keeps 12 bits and VF becomes 1; otherwise VF is unchanged. -/
def execAddIVx (x : Reg) (s : State) : Result :=
  let sum := s.i + zextByte (s.getV x)
  if indexOverflow sum then .next ((s.setI (sum &&& 0x0FFF)).setV VF 1)
  else .next (s.setI sum)

/-- FX29 LD F, Vx (R105): VX is not reduced to its low nibble. -/
def execLdFVx (x : Reg) (s : State) : Result :=
  .next (s.setI (BitVec.ofNat 16 (fontBase + (s.getV x).toNat * 5)))

/-- The decimal digits of a byte: hundreds, tens, ones (R106). -/
def bcdDigits (b : Byte) : List Byte :=
  [BitVec.ofNat 8 (b.toNat / 100), BitVec.ofNat 8 (b.toNat / 10 % 10), BitVec.ofNat 8 (b.toNat % 10)]

/-- FX33 LD B, Vx (R106). -/
def execLdBVx (x : Reg) (s : State) : Result :=
  if inMemory (indexAddr s) 3 then
    .next { s with mem := s.mem.writeList (indexAddr s) (bcdDigits (s.getV x)) }
  else .next (s.raise .dataOutOfRange (some (firstOutside (indexAddr s))))

/-- What FX55 and FX65 do to I: I + X + 1 modulo 2^16 under quirk_index_increment, nothing without it (R107, R108). -/
def State.advanceI (s : State) (x : Reg) : State :=
  if s.cfg.indexIncrement then s.setI (s.i + BitVec.ofNat 16 (x.val + 1)) else s

/-- Memory after V0 to VX are stored from address `a` on (R107). -/
def storeRegs (s : State) (a : Nat) (x : Reg) : Memory :=
  s.mem.writeList a ((regsUpTo x).map s.getV)

/-- FX55 LD [I], Vx (R107). -/
def execLdMemVx (x : Reg) (s : State) : Result :=
  if inMemory (indexAddr s) (x.val + 1) then
    .next (State.advanceI { s with mem := storeRegs s (indexAddr s) x } x)
  else .next (s.raise .dataOutOfRange (some (firstOutside (indexAddr s))))

/-- The state after V0 to VX are loaded from address `a` on (R108). -/
def loadRegs (s : State) (a : Nat) (x : Reg) : State :=
  (regsUpTo x).foldl (fun t r => t.setV r (s.mem.read (a + r.val))) s

/-- FX65 LD Vx, [I] (R108). -/
def execLdVxMem (x : Reg) (s : State) : Result :=
  if inMemory (indexAddr s) (x.val + 1) then
    .next ((loadRegs s (indexAddr s) x).advanceI x)
  else .next (s.raise .dataOutOfRange (some (firstOutside (indexAddr s))))

end Sys2Proof.Machine
end

