-- ==== Sys2Proof/Machine/Input.lean ====
section
/-! DEFINITION. Keypad and timer instructions (45_input_timers.md). -/

namespace Sys2Proof.Machine

/-- EX9E SKP Vx (R112). -/
def execSkp (x : Reg) (s : State) : Result :=
  match keyOperand s x with
  | some k => .next (s.skipIf s.key[k])
  | none => .next (s.raise .keyOutOfRange (some (s.getV x).toNat))

/-- EXA1 SKNP Vx (R113). -/
def execSknp (x : Reg) (s : State) : Result :=
  match keyOperand s x with
  | some k => .next (s.skipIf (!s.key[k]))
  | none => .next (s.raise .keyOutOfRange (some (s.getV x).toNat))

/-- FX07 LD Vx, DT (R114). -/
def execLdVxDt (x : Reg) (s : State) : Result := .next (s.setV x s.dt)

/-- FX0A LD Vx, K (R115): the lowest pressed key, or back to this instruction while none is pressed. -/
def execLdVxK (x : Reg) (s : State) : Result :=
  match lowestPressed s with
  | some k => .next (s.setV x (BitVec.ofNat 8 k.val))
  | none => .next (s.setPc (s.pc - 2))

/-- FX15 LD DT, Vx (R116). -/
def execLdDtVx (x : Reg) (s : State) : Result := .next { s with dt := s.getV x }

/-- FX18 LD ST, Vx (R117). -/
def execLdStVx (x : Reg) (s : State) : Result := .next { s with st := s.getV x }

end Sys2Proof.Machine
end

