-- ==== Sys2Proof/Machine/Cycle.lean ====
section
/-! DEFINITION. The three phases of a Step and their order (40_cycle.md R73 to R80). -/

namespace Sys2Proof.Machine

/-- The execute phase on the state the fetch phase leaves (R74 to R76): the decoded instruction, or R78. -/
def execDecoded (s : State) : Result :=
  match s.decoded with
  | .ok i => exec i (s.fetched (isDraw i))
  | .error _ => execUnrecognized (s.fetched false)

/-- The step of R80: not admitted before a Load, nothing while halted, otherwise fetch, decode and execute, and on a fault
the state before the step with the fault record. -/
def stepCycle (s : State) : Result :=
  if !s.loaded then .fault .stepNotAdmitted
  else if s.fault.code ≠ .noFault then .next s
  else if !s.canFetch then .next s.raiseFetch
  else commitResult s (execDecoded s)

end Sys2Proof.Machine
end

