-- ==== Sys2Proof/Machine/Step.lean ====
section
/-! DEFINITION. `Step()` of the core as one function of the state before it (40_cycle.md R80). -/

namespace Sys2Proof.Machine

/-- `Step()` (R73, R80). -/
def step (s : State) : Host.Outcome State Fault Refusal := stepCycle s

/-- The state `s` with the instruction of bits `w` where the next step fetches it (log entry 7). -/
def State.withFetchWord (s : State) (nbits w : Nat) : State := s.placeWord (BitVec.ofNat 16 (w % 2 ^ nbits))

end Sys2Proof.Machine
end

