-- ==== Sys2Proof/Machine/HostOps.lean ====
section
/-! DEFINITION. What the host's operations other than Step do to the state (60_exceptions.md R126 to R130; 20_memory.md
R56; 70_reset_and_hazards.md R138). -/

namespace Sys2Proof.Machine

/-- Construct(cfg) (R138): the font in zeroed memory, every other element as R39 says, the configuration as given. -/
def State.construct (cfg : Config) (font : Vector Byte 80) : State :=
  { State.reset with cfg := cfg, mem := Memory.writeList [] fontBase font.toList }

/-- What the host hands to Load: the bytes of an image, or the report that it could not be read (R56, D38). -/
inductive Image where
  | bytes (image : List Byte)
  | unreadable
  deriving DecidableEq, Repr

/-- Load(image) (R56): OK and the state with the bytes from 0x200 on, or FAIL and the state as it was. -/
def State.load (s : State) : Image → Bool × State
  | .unreadable => (false, s)
  | .bytes image =>
    if image.length > maxRom then (false, s)
    else (true, { s with mem := s.mem.writeList loadBase image, loaded := true })

/-- One timer's countdown, clamped at 0 (R126). -/
def countDown (t : Byte) : Byte := if t.toNat > 0 then t - 1 else t

/-- Tick() (R126). -/
def State.tick (s : State) : State := { s with dt := countDown s.dt, st := countDown s.st }

/-- KeyDown(k) (R129). -/
def State.keyDown (s : State) (k : Key) : State := { s with key := s.key.set k true }

/-- KeyUp(k) (R129). -/
def State.keyUp (s : State) (k : Key) : State := { s with key := s.key.set k false }

/-- ClearDirty() (R130). -/
def State.clearDirty (s : State) : State := { s with dirty := false }

/-- ToneActive() (R128). -/
def State.toneActive (s : State) : Bool := decide (s.st.toNat > 0)

/-- What ReadStatus() returns (R127). -/
structure Status where
  pc : Word
  fault : FaultRecord
  unkSeen : Bool
  unkLast : Word
  drew : Bool
  loaded : Bool
  deriving DecidableEq, Repr

/-- ReadStatus() (R127). -/
def State.readStatus (s : State) : Status where
  pc := s.pc
  fault := s.fault
  unkSeen := s.unkSeen
  unkLast := s.unkLast
  drew := s.drew
  loaded := s.loaded

/-- The number of a fault code (R119). -/
def FaultCode.number : FaultCode → Nat
  | .noFault => 0
  | .stackUnderflow => 1
  | .stackOverflow => 2
  | .fetchOutOfRange => 3
  | .dataOutOfRange => 4
  | .keyOutOfRange => 5
  | .unknownOpcode => 6

end Sys2Proof.Machine
end

