-- ==== Sys2Proof/Machine/Transactions.lean ====
section
/-! DEFINITION. The host interface as a set of atomic operations (60_exceptions.md R127), and the runs of a host that meets
its obligations (R131, R133; 20_memory.md R57; 70_reset_and_hazards.md R140). -/

namespace Sys2Proof.Machine

/-- The operations of R127 on a constructed core. -/
inductive Operation where
  | load (image : Image)
  | step
  | tick
  | keyDown (k : Key)
  | keyUp (k : Key)
  | clearDirty
  | readFrame
  | toneActive
  | readStatus
  deriving DecidableEq, Repr

/-- What an operation returns (R127). -/
inductive Response where
  /-- Nothing. -/
  | done
  /-- Load: OK (true) or FAIL (false). -/
  | loadResult (ok : Bool)
  /-- ReadFrame: the cells and `dirty`. -/
  | frame (cells : Frame) (dirty : Bool)
  /-- ToneActive. -/
  | tone (active : Bool)
  /-- ReadStatus. -/
  | status (view : Status)
  deriving DecidableEq, Repr

/-- A run between two operations: the core, and what of the host's earlier operations decides which it may issue next
(R133; log entries 10, 12). The state block has no element for either, since a Load that fails changes nothing in it. -/
structure Session where
  /-- The state of the core. -/
  core : State
  /-- A Load has been issued in this run, OK or FAIL (R57, R133 item 1). -/
  loadIssued : Bool
  /-- Under quirk_draw_pacing, a Tick is due before the next Step (R131, R133 item 6). -/
  tickOwed : Bool
  deriving DecidableEq, Repr

/-- The run right after Construct(cfg) (R138, R140): no Load issued, no Tick due. -/
def Session.construct (cfg : Config) (font : Vector Byte 80) : Session where
  core := State.construct cfg font
  loadIssued := false
  tickOwed := false

/-- The "admitted when" column of R127 with what the obligations of R133 take away: one Load, never after a Step, whether it
succeeded or not (R57, R140, D23); under quirk_draw_pacing no Step before the Tick that is due (R131, D14). -/
def Session.admits (r : Session) : Operation → Bool
  | .load _ => !r.core.loaded && !r.loadIssued
  | .step => r.core.loaded && !r.tickOwed
  | .tick => true
  | .keyDown _ => true
  | .keyUp _ => true
  | .clearDirty => true
  | .readFrame => true
  | .toneActive => true
  | .readStatus => true

/-- What an operation does to the core and returns (R127). A Step that `step` does not admit has neither. -/
def effect (op : Operation) (s : State) : Option (Response × State) :=
  match op with
  | .load image => some (.loadResult (s.load image).1, (s.load image).2)
  | .step =>
    match step s with
    | .next t => some (.done, t)
    | .fault _ => none
    | .refused _ => none
  | .tick => some (.done, s.tick)
  | .keyDown k => some (.done, s.keyDown k)
  | .keyUp k => some (.done, s.keyUp k)
  | .clearDirty => some (.done, s.clearDirty)
  | .readFrame => some (.frame s.fb s.dirty, s)
  | .toneActive => some (.tone s.toneActive, s)
  | .readStatus => some (.status s.readStatus, s)

/-- The run after an operation that left the core in `t`: a Load has now been issued; a Step that drew makes a Tick due
under quirk_draw_pacing, and a Tick meets it. -/
def Session.after (r : Session) (op : Operation) (t : State) : Session :=
  match op with
  | .load _ => { r with core := t, loadIssued := true }
  | .step => { r with core := t, tickOwed := t.cfg.drawPacing && t.drew }
  | .tick => { r with core := t, tickOwed := false }
  | .keyDown _ => { r with core := t }
  | .keyUp _ => { r with core := t }
  | .clearDirty => { r with core := t }
  | .readFrame => { r with core := t }
  | .toneActive => { r with core := t }
  | .readStatus => { r with core := t }

/-- An operation as one transaction (R127); none where it is not admitted, so that a host which breaks an obligation of
R133 has no move. -/
def perform (op : Operation) (r : Session) : Option (Response × Session) :=
  if r.admits op then
    match effect op r.core with
    | some (response, t) => some (response, r.after op t)
    | none => none
  else none

/-- The run after a sequence of operations; none where one of them is not admitted. -/
def performAll : List Operation → Session → Option Session
  | [], r => some r
  | op :: ops, r =>
    match perform op r with
    | some (_, q) => performAll ops q
    | none => none

end Sys2Proof.Machine
end

