-- ==== Sys2Proof/Safety.lean ====
section
/-! DEFINITION. What claims about runs are stated with: the ends of a run (60_exceptions.md R137), the points a run
reaches (R140), and the invariants of the machine and of a run. -/

namespace Sys2Proof.Safety

open Sys2Proof.Machine

/-- Halted (R121, R137): a fault is recorded. -/
def Halted (s : State) : Prop := s.fault.code ≠ .noFault

/-- Idle (R137): no fault is recorded, and the word at pc is 1NNN with NNN = pc. -/
def Idle (s : State) : Prop :=
  s.fault.code = .noFault ∧ s.canFetch = true ∧ s.fetchWord = wordNNN 0x1 (s.pc.setWidth 12) ∧
    zextAddr (s.pc.setWidth 12) = s.pc

/-- A point of some run: a construction and then admitted operations (R127, R133, R140). -/
inductive Reachable : Session → Prop where
  | construct (cfg : Config) (font : Vector Byte 80) : Reachable (Session.construct cfg font)
  | operation (op : Operation) (r q : Session) (response : Response) :
      Reachable r → perform op r = some (response, q) → Reachable q

/-- What the core satisfies at every point of a run. -/
structure Inv (s : State) : Prop where
  /-- Memory is in its canonical form, every listed address below 4096 (R41). -/
  memWf : s.mem.wf = true
  /-- The stack holds at most 16 entries (R25). -/
  stackBound : s.stack.length ≤ stackDepth
  /-- A return address is at most 0x1000 (R23). -/
  stackEntries : ∀ a ∈ s.stack, a.toNat ≤ 0x1000
  /-- I is at most 0x1000 (R20). -/
  indexBound : s.i.toNat ≤ 0x1000
  /-- pc is at most 0x10FE (R23). -/
  pcBound : s.pc.toNat ≤ 0x10FE
  /-- With no fault recorded, the record is empty (R34, R39). -/
  noFaultEmpty : s.fault.code = .noFault → s.fault = FaultRecord.empty
  /-- Until an unrecognized word has been executed, none is recorded (R35, R39). -/
  noUnknownYet : s.unkSeen = false → s.unkLast = 0
  /-- Before a successful Load nothing has been executed or faulted: pc is at the reset vector (R37, R39, R57). -/
  notLoadedYet : s.loaded = false → s.pc = 0x0200 ∧ s.fault = FaultRecord.empty

/-- What every point of a run satisfies: the core's invariant, and that the host's obligations are recorded as R57 and R131
have them. -/
structure SessionInv (r : Session) : Prop where
  /-- The core satisfies its invariant. -/
  core : Inv r.core
  /-- A Load that succeeded has been issued (R37, R57). -/
  loadedIssued : r.core.loaded = true → r.loadIssued = true
  /-- A Tick is due only under quirk_draw_pacing and after a Step that drew (R131). -/
  owedDrew : r.tickOwed = true → r.core.cfg.drawPacing = true ∧ r.core.drew = true

/-! ### What statements about one instruction or one step are written with -/

/-- A Step of `s` fetches, decodes and executes `i`: loaded, not halted, the word inside memory and decoding to `i`
(R73 to R76). -/
def Runs (s : State) (i : Instr) : Prop :=
  s.loaded = true ∧ s.fault.code = .noFault ∧ s.canFetch = true ∧ s.decoded = .ok i

/-- The state after a step of `s` that raises `code` in its execute phase: only the fault record changes (R77). -/
def faulted (s : State) (code : FaultCode) (addr : Option Nat) : State :=
  { s with fault := { code := code, pc := s.pc, op := some s.fetchWord, addr := addr } }

/-- `t` is `s` but for pc: every register, flag, memory byte and other field is the same. -/
def OnlyPc (s t : State) : Prop := { t with pc := s.pc } = s

/-- `t` is `s` but for the general registers. -/
def OnlyV (s t : State) : Prop := { t with v := s.v } = s

/-- `t` is `s` but for I. -/
def OnlyI (s t : State) : Prop := { t with i := s.i } = s

/-- `t` is `s` but for the general registers and I. -/
def OnlyVI (s t : State) : Prop := { t with v := s.v, i := s.i } = s

/-- `t` is `s` but for memory and I. -/
def OnlyMemI (s t : State) : Prop := { t with mem := s.mem, i := s.i } = s

/-- `t` is `s` but for the framebuffer, `dirty` and the general registers. -/
def OnlyFrameV (s t : State) : Prop := { t with fb := s.fb, dirty := s.dirty, v := s.v } = s

end Sys2Proof.Safety
end

