-- ==== Sys2Proof/Certificates/Slice0/Obligations.lean ====
section
/-! DEFINITION. The statements for the provers. Each docstring names the rules of spec/ it formalises. `exec i s` is the
execute phase: `s` is the state the fetch phase leaves, with pc past the word (40_cycle.md R74). A frame is an equation
between whole states but for the fields it names, so it covers every register, flag, byte of memory and special field. -/

open Sys2Proof Sys2Proof.Machine Sys2Proof.Safety

/-! ### Construction and reset -/

/-- R39 (its register values are the spec's decision D16): the state after construction, for every configuration and font
table, and what a successful Load changes of it. -/
def Obligations.ConstructedState : Prop :=
  ∀ (cfg : Config) (font : Vector Byte 80), let s := State.construct cfg font
    (∀ a, a < 4096 → ¬ (0x050 ≤ a ∧ a < 0x0A0) → s.mem.read a = 0) ∧
    (∀ k : Fin 80, s.mem.read (0x050 + k.val) = font[k]) ∧
    s.pc = 0x0200 ∧ (∀ r, s.getV r = 0) ∧ s.i = 0 ∧ s.stack = [] ∧ s.dt = 0 ∧ s.st = 0 ∧
    (∀ k, s.fb.pixel k = false) ∧ (∀ k : Key, s.key[k] = false) ∧ s.opcode = 0 ∧ s.dirty = false ∧ s.drew = false ∧
    s.fault = { code := .noFault, pc := 0, op := none, addr := none } ∧ s.unkSeen = false ∧ s.unkLast = 0 ∧
    s.loaded = false ∧ s.cfg = cfg ∧
    ∀ image t, s.load (.bytes image) = (true, t) →
      { t with mem := s.mem, loaded := s.loaded } = s ∧ t.loaded = true ∧
      ∀ a, ¬ (0x200 ≤ a ∧ a < 0x200 + image.length) → t.mem.read a = s.mem.read a

/-- The model's reset state is the construction with this hardware's parameters, every quirk off (R8, R39) and the
conventional font, whose bytes are those of R47 (general knowledge K1, log entry 6). -/
def Obligations.ResetIsConstructed : Prop :=
  State.reset = State.construct {} conventionalFont ∧
  State.reset.cfg = { shiftSource := false, jumpOffset := false, indexIncrement := false, drawPacing := false,
                      decodeMode := .loose, unknownOp := .nop, spriteWrap := .linear } ∧
  (List.range 80).map (fun k => State.reset.mem.read (0x050 + k)) =
    [0xF0, 0x90, 0x90, 0x90, 0xF0, 0x20, 0x60, 0x20, 0x20, 0x70, 0xF0, 0x10, 0xF0, 0x80, 0xF0, 0xF0, 0x10, 0xF0, 0x10,
     0xF0, 0x90, 0x90, 0xF0, 0x10, 0x10, 0xF0, 0x80, 0xF0, 0x10, 0xF0, 0xF0, 0x80, 0xF0, 0x90, 0xF0, 0xF0, 0x10, 0x20,
     0x40, 0x40, 0xF0, 0x90, 0xF0, 0x90, 0xF0, 0xF0, 0x90, 0xF0, 0x10, 0xF0, 0xF0, 0x90, 0xF0, 0x90, 0x90, 0xE0, 0x90,
     0xE0, 0x90, 0xE0, 0xF0, 0x80, 0x80, 0x80, 0xF0, 0xE0, 0x90, 0x90, 0x90, 0xE0, 0xF0, 0x80, 0xF0, 0x80, 0xF0, 0xF0,
     0x80, 0xF0, 0x80, 0x80]

/-! ### The invariant -/

/-- The invariant holds after every construction, with nothing recorded of the host, and in the model's reset state. -/
def Obligations.InvariantAtConstruction : Prop :=
  Inv State.reset ∧ ∀ (cfg : Config) (font : Vector Byte 80), SessionInv (Session.construct cfg font)

/-- Every step keeps the invariant: canonical memory, at most 16 return addresses of at most 0x1000 each, I at most 0x1000
(R20), pc at most 0x10FE (R23), an empty record while no fault is recorded. -/
def Obligations.StepKeepsInvariant : Prop :=
  ∀ s t : State, Inv s → step s = .next t → Inv t

/-- Every operation of the host that has a transition keeps the invariant of a run (`SessionInv`): the core's invariant, and
the record of what the host has done. -/
def Obligations.OperationsKeepInvariant : Prop :=
  ∀ (op : Operation) (r q : Session) (response : Response),
    SessionInv r → perform op r = some (response, q) → SessionInv q

/-- Every point of every run, whatever the host's operations, satisfies the invariant of a run. -/
def Obligations.ReachableStatesSatisfyInvariant : Prop :=
  ∀ r : Session, Reachable r → SessionInv r

/-! ### The step -/

/-- R74, R76, R77: a step of a core that is loaded, not halted and has its word inside memory is `exec` of the decoded
instruction on the state with the word latched, pc past it and `drew` set; when that raised a fault, the state before the
step with the fault record. -/
def Obligations.StepRunsDecoded : Prop :=
  ∀ (s : State) (i : Instr), Runs s i →
    ∃ t, exec i { s with opcode := s.mem.read s.pc.toNat ++ s.mem.read (s.pc.toNat + 1),
                         pc := s.pc + 2, drew := isDraw i } = .next t ∧
      step s = .next (if t.fault.code = .noFault then t else { s with fault := t.fault })

/-- R57 and the rows Load and Step of R127: when the two are admitted and what they then do. A Load is admitted exactly before
the first one, whether that succeeds or fails; a Step exactly after a successful Load, while no Tick is due (R133). That
`step` itself answers `stepNotAdmitted` before a Load is the model's own stop, where the rules give a Step no transition
(log entry 2, DEDUCED). -/
def Obligations.LoadOnceThenStep : Prop :=
  ∀ r : Session,
    (r.core.loaded = false → step r.core = .fault .stepNotAdmitted ∧ perform .step r = none) ∧
    (r.core.loaded = true → r.tickOwed = false → ∃ t, step r.core = .next t ∧
      perform .step r = some (.done, { r with core := t, tickOwed := t.cfg.drawPacing && t.drew })) ∧
    (∀ image, r.core.loaded = false → r.loadIssued = false →
      perform (.load image) r = some (.loadResult (r.core.load image).1,
        { r with core := (r.core.load image).2, loadIssued := true })) ∧
    (∀ image, r.core.loaded = true ∨ r.loadIssued = true → perform (.load image) r = none)

/-- A Load that fails ends the run (R57, R140): after it, whatever the host does in between, neither a Load nor a Step has a
transition, and the core is still the one before the Load but for its timers, keys and `dirty`. -/
def Obligations.FailedLoadEndsRun : Prop :=
  ∀ (r q u : Session) (image : Image) (ops : List Operation),
    perform (.load image) r = some (.loadResult false, q) → performAll ops q = some u →
      perform .step u = none ∧ (∀ again, perform (.load again) u = none) ∧
      { u.core with dt := r.core.dt, st := r.core.st, key := r.core.key, dirty := r.core.dirty } = r.core

/-- R121: a halted core. A Step changes nothing, no operation touches the record, Tick and the host's other operations
still act. -/
def Obligations.HaltedCore : Prop :=
  ∀ r : Session, Halted r.core → r.core.loaded = true →
    step r.core = .next r.core ∧
    (∀ op response q, perform op r = some (response, q) → q.core.fault = r.core.fault) ∧
    perform .tick r = some (.done, { r with core := r.core.tick, tickOwed := false }) ∧
    (∀ k, perform (.keyDown k) r = some (.done, { r with core := r.core.keyDown k })) ∧
    (∀ k, perform (.keyUp k) r = some (.done, { r with core := r.core.keyUp k })) ∧
    perform .clearDirty r = some (.done, { r with core := r.core.clearDirty }) ∧
    perform .readFrame r = some (.frame r.core.fb r.core.dirty, r) ∧
    perform .toneActive r = some (.tone (decide (r.core.st.toNat > 0)), r) ∧
    perform .readStatus r = some (.status ⟨r.core.pc, r.core.fault, r.core.unkSeen, r.core.unkLast, r.core.drew,
      r.core.loaded⟩, r)

/-- R49: the fetch. Outside memory it faults with the first byte address at or above 4096 and changes nothing else; inside,
at an even or an odd address, the word is the two bytes at pc, the first one high. -/
def Obligations.FetchReadsOrFaults : Prop :=
  ∀ s : State,
    (s.loaded = true → s.fault.code = .noFault → s.pc.toNat + 1 > 0x0FFF →
      step s = .next { s with fault :=
        { code := .fetchOutOfRange, pc := s.pc, op := none,
          addr := some (if s.pc.toNat ≤ 0x0FFF then s.pc.toNat + 1 else s.pc.toNat) } }) ∧
    (s.pc.toNat + 1 ≤ 0x0FFF → s.canFetch = true ∧
      s.fetchWord.toNat = (s.mem.read s.pc.toNat).toNat * 256 + (s.mem.read (s.pc.toNat + 1)).toNat)

/-- R78: a word no row selects only records itself under UNKNOWN_OP = nop, and faults under UNKNOWN_OP = fault. -/
def Obligations.UnrecognizedWord : Prop :=
  ∀ (s : State) (e : DecodeReject), s.loaded = true → s.fault.code = .noFault → s.canFetch = true →
    s.decoded = .error e →
    (s.cfg.unknownOp = .nop → step s = .next { s with
      opcode := s.fetchWord, pc := s.pc + 2, drew := false, unkSeen := true, unkLast := s.fetchWord }) ∧
    (s.cfg.unknownOp = .fault → step s = .next (faulted s .unknownOpcode none))

/-- R77: a step that raises a fault changes the fault record and nothing else; it records the instruction's address, the
word unless the fetch itself faulted, and the information the execute phase raised. -/
def Obligations.FaultsArePrecise : Prop :=
  ∀ s t : State, step s = .next t → t.fault ≠ s.fault →
    t = { s with fault := t.fault } ∧ s.fault.code = .noFault ∧ t.fault.code ≠ .noFault ∧ t.fault.pc = s.pc ∧
    t.fault.op = (if t.fault.code = .fetchOutOfRange then none else some s.fetchWord) ∧
    ∀ i u, Runs s i → exec i (s.fetched (isDraw i)) = .next u → t.fault = u.fault

/-- R119: each fault is raised exactly under its condition, with its number and what `fault_addr` records. The premise
on the stack is part of `Inv`. -/
def Obligations.FaultConditions : Prop :=
  (FaultCode.number .noFault = 0 ∧ FaultCode.number .stackUnderflow = 1 ∧ FaultCode.number .stackOverflow = 2 ∧
    FaultCode.number .fetchOutOfRange = 3 ∧ FaultCode.number .dataOutOfRange = 4 ∧
    FaultCode.number .keyOutOfRange = 5 ∧ FaultCode.number .unknownOpcode = 6) ∧
  ∀ s t : State, s.loaded = true → s.fault.code = .noFault → s.stack.length ≤ 16 → step s = .next t →
    (t.fault.code = .stackUnderflow ↔ Runs s .ret ∧ s.stack.length = 0) ∧
    (t.fault.code = .stackOverflow ↔ (∃ nnn, Runs s (.call nnn)) ∧ s.stack.length = 16) ∧
    (t.fault.code = .fetchOutOfRange ↔ s.pc.toNat + 1 ≥ 4096) ∧
    (t.fault.code = .dataOutOfRange ↔
      (∃ x y n, Runs s (.drw x y n) ∧ n ≠ 0 ∧ s.i.toNat + n.toNat - 1 ≥ 4096) ∨
      (∃ x, Runs s (.ldBVx x) ∧ s.i.toNat + 2 ≥ 4096) ∨
      (∃ x, (Runs s (.ldMemVx x) ∨ Runs s (.ldVxMem x)) ∧ s.i.toNat + x.val ≥ 4096)) ∧
    (t.fault.code = .keyOutOfRange ↔ ∃ x, (Runs s (.skp x) ∨ Runs s (.sknp x)) ∧ (s.getV x).toNat ≥ 16) ∧
    (t.fault.code = .unknownOpcode ↔
      s.canFetch = true ∧ (∃ e, s.decoded = .error e) ∧ s.cfg.unknownOp = .fault) ∧
    (t.fault.code = .noFault → t.fault = s.fault) ∧
    (t.fault.code ≠ .noFault → t.fault.pc = s.pc ∧
      t.fault.op = (if t.fault.code = .fetchOutOfRange then none else some s.fetchWord)) ∧
    (t.fault.code = .fetchOutOfRange →
      t.fault.addr = some (if s.pc.toNat = 0xFFF then s.pc.toNat + 1 else s.pc.toNat)) ∧
    (t.fault.code = .dataOutOfRange → t.fault.addr = some (max s.i.toNat 0x1000)) ∧
    (t.fault.code = .keyOutOfRange → ∃ x, (Runs s (.skp x) ∨ Runs s (.sknp x)) ∧ t.fault.addr = some (s.getV x).toNat) ∧
    (t.fault.code = .stackUnderflow ∨ t.fault.code = .stackOverflow ∨ t.fault.code = .unknownOpcode →
      t.fault.addr = none)

/-- R22: pc after a step that raises no fault, from the address A = `s.pc` of the instruction. -/
def Obligations.PcAfterStep : Prop :=
  ∀ s t : State, s.fault.code = .noFault → step s = .next t → t.fault.code = .noFault →
    t.pc = match s.decoded with
      | .ok (.seImm x nn) => if s.getV x = nn then s.pc + 4 else s.pc + 2
      | .ok (.sneImm x nn) => if s.getV x ≠ nn then s.pc + 4 else s.pc + 2
      | .ok (.seReg x y) => if s.getV x = s.getV y then s.pc + 4 else s.pc + 2
      | .ok (.sneReg x y) => if s.getV x ≠ s.getV y then s.pc + 4 else s.pc + 2
      | .ok (.skp x) => if ∃ k : Key, k.val = (s.getV x).toNat ∧ s.key[k] = true then s.pc + 4 else s.pc + 2
      | .ok (.sknp x) => if ∃ k : Key, k.val = (s.getV x).toNat ∧ s.key[k] = false then s.pc + 4 else s.pc + 2
      | .ok (.jp nnn) => BitVec.ofNat 16 nnn.toNat
      | .ok (.call nnn) => BitVec.ofNat 16 nnn.toNat
      | .ok .ret => s.stack.getLastD 0
      | .ok (.jpV0 nnn) => BitVec.ofNat 16 (nnn.toNat + (s.getV 0).toNat)
      | .ok (.jpVx x nnn) => BitVec.ofNat 16 (nnn.toNat + (s.getV x).toNat)
      | .ok (.ldVxK _) => if ∀ k : Key, s.key[k] = false then s.pc else s.pc + 2
      | _ => s.pc + 2

/-- R33: every step that completes without a fault sets `drew` to whether it executed DXYN, a draw and a clear raise
`dirty`, and no step lowers it. -/
def Obligations.DirtyAndDrewAfterStep : Prop :=
  ∀ s t : State, s.fault.code = .noFault → step s = .next t → t.fault.code = .noFault →
    (t.drew = true ↔ ∃ x y n, s.decoded = .ok (.drw x y n)) ∧
    (t.dirty = true ↔ s.dirty = true ∨ s.decoded = .ok .cls ∨ ∃ x y n, s.decoded = .ok (.drw x y n))

/-! ### Which instruction writes what -/

/-- No step changes the configuration (R31), the key state (R30) or `loaded` (R37); `draws` is the model's own count of
random bytes and moves only at CXNN (log entry 3). -/
def Obligations.StepKeepsConfigurationAndKeys : Prop :=
  ∀ s t : State, step s = .next t →
    t.cfg = s.cfg ∧ t.key = s.key ∧ t.loaded = s.loaded ∧
    (t.draws ≠ s.draws → ∃ x nn, Runs s (.rnd x nn) ∧ t.draws = s.draws + 1)

/-- R51, R52: memory changes only at FX33 and FX55, and only at I, I+1, I+2 or I to I+X. -/
def Obligations.MemoryWrittenOnlyByStores : Prop :=
  ∀ s t : State, s.mem.wf = true → step s = .next t → ∀ a, t.mem.read a ≠ s.mem.read a →
    (∃ x, Runs s (.ldBVx x) ∧ s.i.toNat ≤ a ∧ a ≤ s.i.toNat + 2) ∨
    (∃ x, Runs s (.ldMemVx x) ∧ s.i.toNat ≤ a ∧ a ≤ s.i.toNat + x.val)

/-- R18: a general register changes only as the destination of an instruction, or VF as a flag (R17). -/
def Obligations.RegistersWrittenOnlyBy : Prop :=
  ∀ s t : State, step s = .next t → ∀ r, t.getV r ≠ s.getV r → ∃ i, Runs s i ∧
    match i with
    | .ldImm x _ | .addImm x _ | .ldReg x _ | .orReg x _ | .andReg x _ | .xorReg x _ | .rnd x _ | .ldVxDt x | .ldVxK x =>
      r = x
    | .addReg x _ | .sub x _ | .shr x _ | .subn x _ | .shl x _ => r = x ∨ r = VF
    | .addIVx _ | .drw _ _ _ => r = VF
    | .ldVxMem x => r ≤ x
    | _ => False

/-- R19, R25, R27, R28, R29: what else a step writes, and by which instruction only. -/
def Obligations.SpecialStateWrittenOnlyBy : Prop :=
  ∀ s t : State, step s = .next t →
    (t.i ≠ s.i → (∃ nnn, Runs s (.ldI nnn)) ∨ (∃ x, Runs s (.addIVx x)) ∨ (∃ x, Runs s (.ldFVx x)) ∨
      ((∃ x, Runs s (.ldMemVx x) ∨ Runs s (.ldVxMem x)) ∧ s.cfg.indexIncrement = true)) ∧
    (t.stack ≠ s.stack → (∃ nnn, Runs s (.call nnn)) ∨ Runs s .ret) ∧
    (t.dt ≠ s.dt → ∃ x, Runs s (.ldDtVx x)) ∧
    (t.st ≠ s.st → ∃ x, Runs s (.ldStVx x)) ∧
    (t.fb ≠ s.fb → Runs s .cls ∨ ∃ x y n, Runs s (.drw x y n)) ∧
    (t.unkSeen ≠ s.unkSeen ∨ t.unkLast ≠ s.unkLast → (∃ e, s.decoded = .error e) ∧ s.cfg.unknownOp = .nop)

/-- `opcode`, `dirty`, `drew` and the diagnostic record are read by no step (R32, R33, R35): two states that differ only in
them step to states that differ only in them. At CXNN both steps take the same draw, `Config.draw` at the same `draws`: that
is the model's choice (log entry 3, DESIGN CHOICE), for the r that R80 gives a step as an argument. -/
def Obligations.DiagnosticsAreNotRead : Prop :=
  ∀ (s t : State) (op last : Word) (dirty drew seen : Bool), step s = .next t →
    ∃ u, step { s with opcode := op, dirty := dirty, drew := drew, unkSeen := seen, unkLast := last } = .next u ∧
      { u with opcode := t.opcode, dirty := t.dirty, drew := t.drew, unkSeen := t.unkSeen, unkLast := t.unkLast } = t

/-! ### Encoding -/

/-- R60: the fields of a word by value. -/
def Obligations.FieldsAreBits : Prop :=
  ∀ w : Word,
    (fieldF w).toNat = w.toNat / 4096 ∧ (fieldX w).val = w.toNat / 256 % 16 ∧ (fieldY w).val = w.toNat / 16 % 16 ∧
    (fieldN w).toNat = w.toNat % 16 ∧ (fieldNN w).toNat = w.toNat % 256 ∧ (fieldNNN w).toNat = w.toNat % 4096

/-- Decoding an encoded well-formed instruction gives it back, whatever bytes follow, in both decode modes; a row of
family B under the value of quirk_jump_offset that selects it. -/
def Obligations.DecodeOfEncode : Prop :=
  ∀ (mode : DecodeMode) (jumpOffset : Bool) (i : Instr) (rest : List Byte),
    i.wellFormed = true → i.selected jumpOffset = true →
    decodeBytes mode jumpOffset (encodeBytes i ++ rest) = .ok (i, rest)

/-- In strict mode the decoder reads exactly the encodings: a word decodes to `i` just when it is the word of the
well-formed instruction `i`. -/
def Obligations.StrictDecodeIsInverse : Prop :=
  ∀ (jumpOffset : Bool) (w : Word) (i : Instr),
    decodeWord .strict jumpOffset w = .ok i ↔ i.wellFormed = true ∧ i.selected jumpOffset = true ∧ encode i = w

/-- R64 (and R66, R67, R68) with the masks of spec/opcode_table.json: every word a row matches decodes to that row's
instruction with the word's fields, CLS, RET, SE_REG and SNE_REG by their loose and their strict masks; and the lines of
R64 that name no instruction are rejected. -/
def Obligations.RowsDecode : Prop :=
  ∀ (mode : DecodeMode) (j : Bool) (w : Word),
    let x := fieldX w
    let y := fieldY w
    let n := fieldN w
    let nn := fieldNN w
    let nnn := fieldNNN w
    (w &&& 0xF00F = 0x0000 → decodeWord .loose j w = .ok .cls) ∧ (w = 0x00E0 → decodeWord .strict j w = .ok .cls) ∧
    (w &&& 0xF00F = 0x000E → decodeWord .loose j w = .ok .ret) ∧ (w = 0x00EE → decodeWord .strict j w = .ok .ret) ∧
    (w &&& 0xF000 = 0x1000 → decodeWord mode j w = .ok (.jp nnn)) ∧
    (w &&& 0xF000 = 0x2000 → decodeWord mode j w = .ok (.call nnn)) ∧
    (w &&& 0xF000 = 0x3000 → decodeWord mode j w = .ok (.seImm x nn)) ∧
    (w &&& 0xF000 = 0x4000 → decodeWord mode j w = .ok (.sneImm x nn)) ∧
    (w &&& 0xF000 = 0x5000 → decodeWord .loose j w = .ok (.seReg x y)) ∧
    (w &&& 0xF00F = 0x5000 → decodeWord .strict j w = .ok (.seReg x y)) ∧
    (w &&& 0xF000 = 0x6000 → decodeWord mode j w = .ok (.ldImm x nn)) ∧
    (w &&& 0xF000 = 0x7000 → decodeWord mode j w = .ok (.addImm x nn)) ∧
    (w &&& 0xF00F = 0x8000 → decodeWord mode j w = .ok (.ldReg x y)) ∧
    (w &&& 0xF00F = 0x8001 → decodeWord mode j w = .ok (.orReg x y)) ∧
    (w &&& 0xF00F = 0x8002 → decodeWord mode j w = .ok (.andReg x y)) ∧
    (w &&& 0xF00F = 0x8003 → decodeWord mode j w = .ok (.xorReg x y)) ∧
    (w &&& 0xF00F = 0x8004 → decodeWord mode j w = .ok (.addReg x y)) ∧
    (w &&& 0xF00F = 0x8005 → decodeWord mode j w = .ok (.sub x y)) ∧
    (w &&& 0xF00F = 0x8006 → decodeWord mode j w = .ok (.shr x y)) ∧
    (w &&& 0xF00F = 0x8007 → decodeWord mode j w = .ok (.subn x y)) ∧
    (w &&& 0xF00F = 0x800E → decodeWord mode j w = .ok (.shl x y)) ∧
    (w &&& 0xF000 = 0x9000 → decodeWord .loose j w = .ok (.sneReg x y)) ∧
    (w &&& 0xF00F = 0x9000 → decodeWord .strict j w = .ok (.sneReg x y)) ∧
    (w &&& 0xF000 = 0xA000 → decodeWord mode j w = .ok (.ldI nnn)) ∧
    (w &&& 0xF000 = 0xB000 → decodeWord mode false w = .ok (.jpV0 nnn)) ∧
    (w &&& 0xF000 = 0xB000 → decodeWord mode true w = .ok (.jpVx x nnn)) ∧
    (w &&& 0xF000 = 0xC000 → decodeWord mode j w = .ok (.rnd x nn)) ∧
    (w &&& 0xF000 = 0xD000 → decodeWord mode j w = .ok (.drw x y n)) ∧
    (w &&& 0xF0FF = 0xE09E → decodeWord mode j w = .ok (.skp x)) ∧
    (w &&& 0xF0FF = 0xE0A1 → decodeWord mode j w = .ok (.sknp x)) ∧
    (w &&& 0xF0FF = 0xF007 → decodeWord mode j w = .ok (.ldVxDt x)) ∧
    (w &&& 0xF0FF = 0xF00A → decodeWord mode j w = .ok (.ldVxK x)) ∧
    (w &&& 0xF0FF = 0xF015 → decodeWord mode j w = .ok (.ldDtVx x)) ∧
    (w &&& 0xF0FF = 0xF018 → decodeWord mode j w = .ok (.ldStVx x)) ∧
    (w &&& 0xF0FF = 0xF01E → decodeWord mode j w = .ok (.addIVx x)) ∧
    (w &&& 0xF0FF = 0xF029 → decodeWord mode j w = .ok (.ldFVx x)) ∧
    (w &&& 0xF0FF = 0xF033 → decodeWord mode j w = .ok (.ldBVx x)) ∧
    (w &&& 0xF0FF = 0xF055 → decodeWord mode j w = .ok (.ldMemVx x)) ∧
    (w &&& 0xF0FF = 0xF065 → decodeWord mode j w = .ok (.ldVxMem x)) ∧
    (fieldF w = 0x0 → n ≠ 0x0 → n ≠ 0xE → decodeWord mode j w = .error .family0) ∧
    (fieldF w = 0x8 → n ∈ ([0x8, 0x9, 0xA, 0xB, 0xC, 0xD, 0xF] : List Nibble) → decodeWord mode j w = .error .family8) ∧
    (fieldF w = 0xE → nn ≠ 0x9E → nn ≠ 0xA1 → decodeWord mode j w = .error .familyE) ∧
    (fieldF w = 0xF → nn ∉ ([0x07, 0x0A, 0x15, 0x18, 0x1E, 0x29, 0x33, 0x55, 0x65] : List Byte) →
      decodeWord mode j w = .error .familyF)

/-- The unrecognized words of R69 (which the spec marks as derived from R62 and R63), in both modes. -/
def Obligations.UnrecognizedWords : Prop :=
  ∀ (j : Bool) (w : Word),
    let f := w.toNat / 4096
    let n := w.toNat % 16
    let nn := w.toNat % 256
    let both := (f = 8 ∧ n ∈ [0x8, 0x9, 0xA, 0xB, 0xC, 0xD, 0xF]) ∨ (f = 0xE ∧ nn ≠ 0x9E ∧ nn ≠ 0xA1) ∨
      (f = 0xF ∧ nn ∉ [0x07, 0x0A, 0x15, 0x18, 0x1E, 0x29, 0x33, 0x55, 0x65])
    ((∃ e, decodeWord .loose j w = .error e) ↔ both ∨ (f = 0 ∧ n ≠ 0x0 ∧ n ≠ 0xE)) ∧
    ((∃ e, decodeWord .strict j w = .error e) ↔
      both ∨ (f = 0 ∧ w ≠ 0x00E0 ∧ w ≠ 0x00EE) ∨ ((f = 5 ∨ f = 9) ∧ n ≠ 0))

/-- R63: what strict mode decodes, loose mode decodes alike, and the two differ exactly on 0x0NN0 other than 0x00E0,
0x0NNE other than 0x00EE, 0x5XYn and 0x9XYn with n not 0. -/
def Obligations.DecodeModesDiffer : Prop :=
  ∀ (j : Bool) (w : Word),
    (∀ i, decodeWord .strict j w = .ok i → decodeWord .loose j w = .ok i) ∧
    (decodeWord .strict j w ≠ decodeWord .loose j w ↔
      (w.toNat / 4096 = 0 ∧ ((w.toNat % 16 = 0 ∧ w ≠ 0x00E0) ∨ (w.toNat % 16 = 0xE ∧ w ≠ 0x00EE))) ∨
      ((w.toNat / 4096 = 5 ∨ w.toNat / 4096 = 9) ∧ w.toNat % 16 ≠ 0))

/-- Words written out from the patterns of R64 decode to the instructions they stand for, one or more per family. -/
def Obligations.WordsDecode : Prop :=
  decodeTableWord 16 0x00E0 = some .cls ∧ decodeTableWord 16 0x0120 = some .cls ∧ decodeTableWord 16 0x00EE = some .ret ∧
  decodeTableWord 16 0x2ABC = some (.call 0xABC) ∧ decodeTableWord 16 0x3A12 = some (.seImm 0xA 0x12) ∧
  decodeTableWord 16 0x5AB1 = some (.seReg 0xA 0xB) ∧ decodeTableWord 16 0x8F14 = some (.addReg 0xF 0x1) ∧
  decodeTableWord 16 0x812E = some (.shl 0x1 0x2) ∧ decodeTableWord 16 0xA123 = some (.ldI 0x123) ∧
  decodeTableWord 16 0xD1F5 = some (.drw 0x1 0xF 0x5) ∧ decodeTableWord 16 0xE19E = some (.skp 0x1) ∧
  decodeTableWord 16 0xF365 = some (.ldVxMem 0x3) ∧ decodeTableWord 16 0x8118 = none ∧ decodeTableWord 16 0xE09F = none ∧
  decodeWord .strict false 0x5AB1 = .error .family5 ∧ decodeWord .loose true 0xB312 = .ok (.jpVx 0x3 0x312)

/-! ### Control flow -/

/-- R81: RET takes pc from the top of the stack; with an empty stack the step faults. -/
def Obligations.RetPopsOrFaults : Prop :=
  (∀ (s : State) (st : List Word) (a : Word), s.stack = st ++ [a] →
    exec .ret s = .next { s with pc := a, stack := st }) ∧
  (∀ s : State, Runs s .ret → s.stack = [] → step s = .next (faulted s .stackUnderflow none))

/-- R83: CALL pushes pc, which is already past the instruction, and jumps; with 16 entries the step faults. -/
def Obligations.CallPushesOrFaults : Prop :=
  (∀ (s : State) (nnn : Addr12), s.stack.length < 16 →
    exec (.call nnn) s = .next { s with pc := BitVec.ofNat 16 nnn.toNat, stack := s.stack ++ [s.pc] }) ∧
  (∀ (s : State) (nnn : Addr12), Runs s (.call nnn) → s.stack.length = 16 →
    step s = .next (faulted s .stackOverflow none))

/-- A CALL followed by the RET of its subroutine restores the whole state: pc and the depth of the stack are back. -/
def Obligations.CallThenRet : Prop :=
  ∀ (s : State) (nnn : Addr12), s.stack.length < 16 →
    ∃ t, exec (.call nnn) s = .next t ∧ t.pc.toNat = nnn.toNat ∧ t.stack.length = s.stack.length + 1 ∧
      exec .ret t = .next s

/-- R82, R88, R89: the jumps set pc to NNN, NNN + V0 and NNN + VX, sums that need no reduction, and nothing else. -/
def Obligations.JumpTargets : Prop :=
  ∀ (s : State) (nnn : Addr12) (x : Reg),
    (∃ t, exec (.jp nnn) s = .next t ∧ t.pc.toNat = nnn.toNat ∧ OnlyPc s t) ∧
    (∃ t, exec (.jpV0 nnn) s = .next t ∧ t.pc.toNat = nnn.toNat + (s.getV 0).toNat ∧ OnlyPc s t) ∧
    (∃ t, exec (.jpVx x nnn) s = .next t ∧ t.pc.toNat = nnn.toNat + (s.getV x).toNat ∧ OnlyPc s t)

/-- R84 to R87: the four skips step over one word when their condition holds, and change nothing but pc. -/
def Obligations.SkipsOnCondition : Prop :=
  ∀ (s : State) (x y : Reg) (nn : Byte),
    exec (.seImm x nn) s = .next { s with pc := if s.getV x = nn then s.pc + 2 else s.pc } ∧
    exec (.sneImm x nn) s = .next { s with pc := if s.getV x ≠ nn then s.pc + 2 else s.pc } ∧
    exec (.seReg x y) s = .next { s with pc := if s.getV x = s.getV y then s.pc + 2 else s.pc } ∧
    exec (.sneReg x y) s = .next { s with pc := if s.getV x ≠ s.getV y then s.pc + 2 else s.pc }

/-! ### Registers and the ALU -/

/-- R91, R92, R93: the loads and the immediate addition, modulo 256 with no flag: VX alone changes. -/
def Obligations.LoadsAndImmediateAdd : Prop :=
  ∀ (s : State) (x y : Reg) (nn : Byte),
    (∃ t, exec (.ldImm x nn) s = .next t ∧ OnlyV s t ∧ ∀ r, t.getV r = if r = x then nn else s.getV r) ∧
    (∃ t, exec (.addImm x nn) s = .next t ∧ OnlyV s t ∧ (t.getV x).toNat = ((s.getV x).toNat + nn.toNat) % 256 ∧
      ∀ r, r ≠ x → t.getV r = s.getV r) ∧
    (∃ t, exec (.ldReg x y) s = .next t ∧ OnlyV s t ∧ ∀ r, t.getV r = if r = x then s.getV y else s.getV r)

/-- R94, R95, R96: the logical operations bit by bit; VF is unchanged unless it is VX. -/
def Obligations.LogicalOperations : Prop :=
  ∀ (s : State) (x y : Reg),
    (∃ t, exec (.orReg x y) s = .next t ∧ OnlyV s t ∧ (∀ r, r ≠ x → t.getV r = s.getV r) ∧
      ∀ b, (t.getV x).getLsbD b = ((s.getV x).getLsbD b || (s.getV y).getLsbD b)) ∧
    (∃ t, exec (.andReg x y) s = .next t ∧ OnlyV s t ∧ (∀ r, r ≠ x → t.getV r = s.getV r) ∧
      ∀ b, (t.getV x).getLsbD b = ((s.getV x).getLsbD b && (s.getV y).getLsbD b)) ∧
    (∃ t, exec (.xorReg x y) s = .next t ∧ OnlyV s t ∧ (∀ r, r ≠ x → t.getV r = s.getV r) ∧
      ∀ b, (t.getV x).getLsbD b = ((s.getV x).getLsbD b ^^ (s.getV y).getLsbD b))

/-- R97 with the order of R90: VF holds the carry, even when X = F; VX otherwise the sum modulo 256. -/
def Obligations.AddWithCarry : Prop :=
  ∀ (s : State) (x y : Reg), ∃ t, exec (.addReg x y) s = .next t ∧ OnlyV s t ∧
    t.getV VF = (if (s.getV x).toNat + (s.getV y).toNat > 255 then 1 else 0) ∧
    (x ≠ VF → (t.getV x).toNat = ((s.getV x).toNat + (s.getV y).toNat) % 256) ∧
    ∀ r, r ≠ x → r ≠ VF → t.getV r = s.getV r

/-- R98, R100 with the order of R90: the difference modulo 256 and VF not borrow, a semantics the spec takes by its decisions
D7 and D8 from general knowledge. -/
def Obligations.SubtractWithBorrow : Prop :=
  ∀ (s : State) (x y : Reg),
    (∃ t, exec (.sub x y) s = .next t ∧ OnlyV s t ∧
      t.getV VF = (if (s.getV x).toNat ≥ (s.getV y).toNat then 1 else 0) ∧
      (x ≠ VF → ((t.getV x).toNat : Int) = ((s.getV x).toNat - (s.getV y).toNat : Int) % 256) ∧
      ∀ r, r ≠ x → r ≠ VF → t.getV r = s.getV r) ∧
    (∃ t, exec (.subn x y) s = .next t ∧ OnlyV s t ∧
      t.getV VF = (if (s.getV y).toNat ≥ (s.getV x).toNat then 1 else 0) ∧
      (x ≠ VF → ((t.getV x).toNat : Int) = ((s.getV y).toNat - (s.getV x).toNat : Int) % 256) ∧
      ∀ r, r ≠ x → r ≠ VF → t.getV r = s.getV r)

/-- R99, R101 with the order of R90: the shifts by one of VX, or of VY under quirk_shift_source; VF the bit shifted out. -/
def Obligations.ShiftsByOne : Prop :=
  ∀ (s : State) (x y : Reg), let src := (if s.cfg.shiftSource then s.getV y else s.getV x).toNat
    (∃ t, exec (.shr x y) s = .next t ∧ OnlyV s t ∧ (t.getV VF).toNat = src % 2 ∧
      (x ≠ VF → (t.getV x).toNat = src / 2) ∧ ∀ r, r ≠ x → r ≠ VF → t.getV r = s.getV r) ∧
    (∃ t, exec (.shl x y) s = .next t ∧ OnlyV s t ∧ (t.getV VF).toNat = src / 128 ∧
      (x ≠ VF → (t.getV x).toNat = src * 2 % 256) ∧ ∀ r, r ≠ x → r ≠ VF → t.getV r = s.getV r)

/-- CXNN (R102): VX receives the draw masked by NN, whatever byte is drawn; a zero mask gives zero and a full mask the draw
itself. That the draw is `Config.draw s.draws`, which has no body, and that `draws` counts it are the model's choice (log
entry 3, DESIGN CHOICE). -/
def Obligations.RandomIsMaskedDraw : Prop :=
  ∀ (s : State) (x : Reg) (nn : Byte), ∃ t, exec (.rnd x nn) s = .next t ∧
    { t with v := s.v, draws := s.draws } = s ∧ t.draws = s.draws + 1 ∧
    t.getV x = Config.draw s.draws &&& nn ∧ (nn = 0 → t.getV x = 0) ∧ (nn = 0xFF → t.getV x = Config.draw s.draws) ∧
    ∀ r, r ≠ x → t.getV r = s.getV r

/-! ### The index register and memory transfers -/

/-- R103, R105: I receives NNN, or the glyph address 0x050 + 5 VX with VX not reduced; nothing else changes. -/
def Obligations.IndexLoads : Prop :=
  ∀ (s : State) (nnn : Addr12) (x : Reg),
    (∃ t, exec (.ldI nnn) s = .next t ∧ OnlyI s t ∧ t.i.toNat = nnn.toNat) ∧
    (∃ t, exec (.ldFVx x) s = .next t ∧ OnlyI s t ∧ t.i.toNat = 0x050 + (s.getV x).toNat * 5)

/-- R104: I + VX modulo 2^16; above 0x0FFF it is masked to 12 bits and VF becomes 1, otherwise VF keeps its value. -/
def Obligations.IndexAdd : Prop :=
  ∀ (s : State) (x : Reg), let sum := (s.i.toNat + (s.getV x).toNat) % 65536
    ∃ t, exec (.addIVx x) s = .next t ∧ OnlyVI s t ∧ (∀ r, r ≠ VF → t.getV r = s.getV r) ∧
      (sum > 0x0FFF → t.i.toNat = sum % 4096 ∧ t.getV VF = 1) ∧
      (sum ≤ 0x0FFF → t.i.toNat = sum ∧ t.getV VF = s.getV VF)

/-- R106 (the digit order is the spec's decision D9, from general knowledge): the decimal digits of VX at I, I+1, I+2, every other byte and every
other field as before; past the end of memory the step faults and writes nothing. -/
def Obligations.BcdStoresDigits : Prop :=
  (∀ (s : State) (x : Reg), s.mem.wf = true → s.i.toNat + 2 ≤ 0x0FFF →
    ∃ t, exec (.ldBVx x) s = .next t ∧ { t with mem := s.mem } = s ∧
      (t.mem.read s.i.toNat).toNat = (s.getV x).toNat / 100 ∧
      (t.mem.read (s.i.toNat + 1)).toNat = (s.getV x).toNat / 10 % 10 ∧
      (t.mem.read (s.i.toNat + 2)).toNat = (s.getV x).toNat % 10 ∧
      ∀ a, ¬ (s.i.toNat ≤ a ∧ a ≤ s.i.toNat + 2) → t.mem.read a = s.mem.read a) ∧
  (∀ (s : State) (x : Reg), Runs s (.ldBVx x) → s.i.toNat + 2 > 0x0FFF →
    step s = .next (faulted s .dataOutOfRange (some (max s.i.toNat 0x1000))))

/-- R107: V0 to VX at I to I+X in ascending order, every other byte as before; I advances by X + 1 under
quirk_index_increment only; past the end of memory the step faults and writes nothing. -/
def Obligations.StoreRegisters : Prop :=
  (∀ (s : State) (x : Reg), s.mem.wf = true → s.i.toNat + x.val ≤ 0x0FFF →
    ∃ t, exec (.ldMemVx x) s = .next t ∧ OnlyMemI s t ∧
      (∀ r, r ≤ x → t.mem.read (s.i.toNat + r.val) = s.getV r) ∧
      (∀ a, ¬ (s.i.toNat ≤ a ∧ a ≤ s.i.toNat + x.val) → t.mem.read a = s.mem.read a) ∧
      t.i.toNat = if s.cfg.indexIncrement then (s.i.toNat + x.val + 1) % 65536 else s.i.toNat) ∧
  (∀ (s : State) (x : Reg), Runs s (.ldMemVx x) → s.i.toNat + x.val > 0x0FFF →
    step s = .next (faulted s .dataOutOfRange (some (max s.i.toNat 0x1000))))

/-- R108: V0 to VX from I to I+X, the registers above VX and all of memory as before; I as for FX55; past the end of memory
the step faults. -/
def Obligations.LoadRegisters : Prop :=
  (∀ (s : State) (x : Reg), s.i.toNat + x.val ≤ 0x0FFF →
    ∃ t, exec (.ldVxMem x) s = .next t ∧ OnlyVI s t ∧
      (∀ r, t.getV r = if r ≤ x then s.mem.read (s.i.toNat + r.val) else s.getV r) ∧
      t.i.toNat = if s.cfg.indexIncrement then (s.i.toNat + x.val + 1) % 65536 else s.i.toNat) ∧
  (∀ (s : State) (x : Reg), Runs s (.ldVxMem x) → s.i.toNat + x.val > 0x0FFF →
    step s = .next (faulted s .dataOutOfRange (some (max s.i.toNat 0x1000))))

/-- The round trip of R107 and R108 (the source's property, S6 of 95_test_vectors.md): after FX55, any change of the
general registers and I back at its value, FX65 restores V0 to VX. -/
def Obligations.StoreThenLoadRestores : Prop :=
  ∀ (s t u : State) (x : Reg) (w : Vector Byte 16), s.mem.wf = true → s.i.toNat + x.val ≤ 0x0FFF →
    exec (.ldMemVx x) s = .next t → exec (.ldVxMem x) { t with v := w, i := s.i } = .next u →
    (∀ r, r ≤ x → u.getV r = s.getV r) ∧ u.i = t.i ∧ u.mem = t.mem

/-- A store is seen by the very next fetch (R55, which the spec marks as derived): the step after FX55 fetches the bytes
FX55 has just written over it. -/
def Obligations.StoreSeenByNextFetch : Prop :=
  ∀ (s t : State) (x : Reg), s.mem.wf = true → Runs s (.ldMemVx x) → s.i.toNat = s.pc.toNat + 2 → 1 ≤ x.val →
    s.i.toNat + x.val ≤ 0x0FFF → step s = .next t → t.fetchWord = s.getV 0 ++ s.getV 1

/-! ### The framebuffer -/

/-- R109: CLS turns every cell off and raises `dirty` (the spec's decision D20); nothing else changes. -/
def Obligations.ClearScreen : Prop :=
  ∀ s : State, ∃ t, exec .cls s = .next t ∧ (∀ k, t.fb.pixel k = false) ∧ t.dirty = true ∧
    { t with fb := s.fb, dirty := s.dirty } = s

/-- R110: DXYN in linear mode. A cell is inverted exactly when a set bit of a sprite row falls on it, VF tells whether a
cell that was on has been turned off, `dirty` is raised, nothing else changes; with N = 0 no cell is covered. Past the end
of memory the step faults and draws nothing. -/
def Obligations.DrawLinear : Prop :=
  (∀ (s : State) (x y : Reg) (n : Nibble), s.cfg.spriteWrap = .linear → (n = 0 ∨ s.i.toNat + n.toNat - 1 ≤ 0x0FFF) →
    let covered := fun k : Fin 2048 => ∃ r c, r < n.toNat ∧ c < 8 ∧
      (s.mem.read (s.i.toNat + r)).getLsbD (7 - c) = true ∧
      k.val = ((s.getV x).toNat % 64 + c + ((s.getV y).toNat % 32 + r) * 64) % 2048
    ∃ t, exec (.drw x y n) s = .next t ∧ OnlyFrameV s t ∧ t.dirty = true ∧
      (∀ k, covered k → t.fb.pixel k = !s.fb.pixel k) ∧ (∀ k, ¬ covered k → t.fb.pixel k = s.fb.pixel k) ∧
      (∀ r, r ≠ VF → t.getV r = s.getV r) ∧
      ((∃ k, covered k ∧ s.fb.pixel k = true) → t.getV VF = 1) ∧
      ((¬ ∃ k, covered k ∧ s.fb.pixel k = true) → t.getV VF = 0)) ∧
  (∀ (s : State) (x y : Reg) (n : Nibble), Runs s (.drw x y n) → n ≠ 0 → s.i.toNat + n.toNat - 1 > 0x0FFF →
    step s = .next (faulted s .dataOutOfRange (some (max s.i.toNat 0x1000))))

/-- R111 (its two formulas are the spec's own reading, from general knowledge): DXYN in clip and axis mode, as in linear mode
but for the cell a pixel falls on; a clipped pixel falls on none. -/
def Obligations.DrawClipAndAxis : Prop :=
  ∀ (s : State) (x y : Reg) (n : Nibble), s.cfg.spriteWrap ≠ .linear → (n = 0 ∨ s.i.toNat + n.toNat - 1 ≤ 0x0FFF) →
    let covered := fun k : Fin 2048 => ∃ r c, r < n.toNat ∧ c < 8 ∧
      (s.mem.read (s.i.toNat + r)).getLsbD (7 - c) = true ∧
      (s.cfg.spriteWrap = .clip → (s.getV x).toNat % 64 + c < 64 ∧ (s.getV y).toNat % 32 + r < 32 ∧
        k.val = (s.getV x).toNat % 64 + c + 64 * ((s.getV y).toNat % 32 + r)) ∧
      (s.cfg.spriteWrap = .axis →
        k.val = ((s.getV x).toNat % 64 + c) % 64 + 64 * (((s.getV y).toNat % 32 + r) % 32))
    ∃ t, exec (.drw x y n) s = .next t ∧ OnlyFrameV s t ∧ t.dirty = true ∧
      (∀ k, covered k → t.fb.pixel k = !s.fb.pixel k) ∧ (∀ k, ¬ covered k → t.fb.pixel k = s.fb.pixel k) ∧
      (∀ r, r ≠ VF → t.getV r = s.getV r) ∧
      ((∃ k, covered k ∧ s.fb.pixel k = true) → t.getV VF = 1) ∧
      ((¬ ∃ k, covered k ∧ s.fb.pixel k = true) → t.getV VF = 0)

/-- Drawing the same sprite twice at the same place restores the framebuffer, in every wrap mode (the source's property,
S7, for every sprite, place and framebuffer); the coordinates are not in VF, which the first draw writes. -/
def Obligations.DrawTwiceRestores : Prop :=
  ∀ (s t u : State) (x y : Reg) (n : Nibble), x ≠ VF → y ≠ VF → (n = 0 ∨ s.i.toNat + n.toNat - 1 ≤ 0x0FFF) →
    exec (.drw x y n) s = .next t → exec (.drw x y n) t = .next u →
    u.fb = s.fb ∧ (t.fb = s.fb ∨ t.getV VF = 1 ∨ u.getV VF = 1)

/-! ### Keypad and timers -/

/-- R112, R113: the key skips read key VX and change nothing but pc; for a VX of 16 or more the step faults. -/
def Obligations.SkipsOnKey : Prop :=
  (∀ (s : State) (x : Reg) (k : Key), (s.getV x).toNat = k.val →
    exec (.skp x) s = .next { s with pc := if s.key[k] = true then s.pc + 2 else s.pc } ∧
    exec (.sknp x) s = .next { s with pc := if s.key[k] = true then s.pc else s.pc + 2 }) ∧
  (∀ (s : State) (x : Reg), Runs s (.skp x) ∨ Runs s (.sknp x) → (s.getV x).toNat ≥ 16 →
    step s = .next (faulted s .keyOutOfRange (some (s.getV x).toNat)))

/-- R115: with no key pressed FX0A only moves pc back to itself; otherwise VX receives the lowest pressed key. -/
def Obligations.WaitForKey : Prop :=
  ∀ (s : State) (x : Reg),
    ((∀ k : Key, s.key[k] = false) → exec (.ldVxK x) s = .next { s with pc := s.pc - 2 }) ∧
    (∀ k : Key, s.key[k] = true → (∀ j : Key, j < k → s.key[j] = false) →
      ∃ t, exec (.ldVxK x) s = .next t ∧ OnlyV s t ∧ (t.getV x).toNat = k.val ∧ ∀ r, r ≠ x → t.getV r = s.getV r)

/-- R114, R116, R117: the moves between VX and the timers. -/
def Obligations.TimerMoves : Prop :=
  ∀ (s : State) (x : Reg),
    (∃ t, exec (.ldVxDt x) s = .next t ∧ OnlyV s t ∧ ∀ r, t.getV r = if r = x then s.dt else s.getV r) ∧
    exec (.ldDtVx x) s = .next { s with dt := s.getV x } ∧
    exec (.ldStVx x) s = .next { s with st := s.getV x }

/-- R126: a Tick takes one from each timer that is not zero and changes nothing else of the core, at any time; a Tick that is
due (R131) is met. -/
def Obligations.TickDecrements : Prop :=
  ∀ r : Session, ∃ t, perform .tick r = some (.done, { r with core := t, tickOwed := false }) ∧
    t.dt.toNat = r.core.dt.toNat - 1 ∧ t.st.toNat = r.core.st.toNat - 1 ∧
    { t with dt := r.core.dt, st := r.core.st } = r.core

/-- After any number of Ticks in a row each timer has gone down by that number and stays at zero (the source's property,
S8, for every start value and every count). -/
def Obligations.TicksCountDown : Prop :=
  ∀ (n : Nat) (r : Session), ∃ q, performAll (List.replicate n .tick) r = some q ∧
    q.core.dt.toNat = r.core.dt.toNat - n ∧ q.core.st.toNat = r.core.st.toNat - n ∧
    { q.core with dt := r.core.dt, st := r.core.st } = r.core

/-- R128, R129, R130: the audio gate, the key events and the frame operations; and the six fields that ReadStatus returns
(its row of R127). -/
def Obligations.HostEventsAndReads : Prop :=
  ∀ r : Session,
    perform .toneActive r = some (.tone (decide (r.core.st.toNat > 0)), r) ∧
    (∀ k, ∃ t, perform (.keyDown k) r = some (.done, { r with core := t }) ∧ { t with key := r.core.key } = r.core ∧
      ∀ j : Key, t.key[j] = if j = k then true else r.core.key[j]) ∧
    (∀ k, ∃ t, perform (.keyUp k) r = some (.done, { r with core := t }) ∧ { t with key := r.core.key } = r.core ∧
      ∀ j : Key, t.key[j] = if j = k then false else r.core.key[j]) ∧
    perform .readFrame r = some (.frame r.core.fb r.core.dirty, r) ∧
    perform .clearDirty r = some (.done, { r with core := { r.core with dirty := false } }) ∧
    ∃ view, perform .readStatus r = some (.status view, r) ∧ view.pc = r.core.pc ∧ view.fault = r.core.fault ∧
      view.unkSeen = r.core.unkSeen ∧ view.unkLast = r.core.unkLast ∧ view.drew = r.core.drew ∧ view.loaded = r.core.loaded

/-- R56: Load fails without a change on an unreadable image or one longer than 3584 bytes, and otherwise copies it verbatim
to 0x200 and sets `loaded`. -/
def Obligations.LoadCopiesOrFails : Prop :=
  ∀ s : State, s.mem.wf = true →
    s.load .unreadable = (false, s) ∧
    (∀ image, image.length > 3584 → s.load (.bytes image) = (false, s)) ∧
    (∀ image, image.length ≤ 3584 → ∃ t, s.load (.bytes image) = (true, t) ∧ t.loaded = true ∧
      { t with mem := s.mem, loaded := s.loaded } = s ∧
      (∀ (k : Nat) (h : k < image.length), t.mem.read (0x200 + k) = image[k]) ∧
      ∀ a, ¬ (0x200 ≤ a ∧ a < 0x200 + image.length) → t.mem.read a = s.mem.read a)

/-! ### Runs -/

/-- From an idle state (R137) a step changes nothing but `opcode` and `drew`, the state it leaves is idle, and from the
second idle step on nothing changes at all. -/
def Obligations.IdleStaysIdle : Prop :=
  ∀ s : State, Idle s → s.loaded = true →
    ∃ t, step s = .next t ∧ { t with opcode := s.opcode, drew := s.drew } = s ∧ Idle t ∧ step t = .next t

/-- The draw-pacing quirk changes no result of a step (R131): a step under the other value of the switch leaves the same
state but for that switch. At CXNN both steps take the same draw, `Config.draw` at the same `draws`: that is the model's
choice (log entry 3, DESIGN CHOICE), for the r that R80 gives a step as an argument. -/
def Obligations.DrawPacingHasNoEffect : Prop :=
  ∀ (s t : State) (d : Bool), step s = .next t →
    step { s with cfg := { s.cfg with drawPacing := d } } = .next { t with cfg := { t.cfg with drawPacing := d } }

/-- Host obligation 6 (R131, R133, decision D14): under the draw-pacing quirk, after a Step that drew no Step has a transition
until a Tick, whatever the host does in between; with the quirk off a Step never waits for a Tick. -/
def Obligations.PacingAsksForTick : Prop :=
  (∀ (r q u : Session) (ops : List Operation), r.core.cfg.drawPacing = true → perform .step r = some (.done, q) →
    q.core.drew = true → .tick ∉ ops → performAll ops q = some u →
      perform .step u = none ∧
      ∃ v w, perform .tick u = some (.done, v) ∧ perform .step v = some (.done, w)) ∧
  (∀ r q : Session, r.core.cfg.drawPacing = false → perform .step r = some (.done, q) →
    ∃ u, perform .step q = some (.done, u))
end

