-- ==== Sys2Proof/Laws/Decode.lean ====
section
/-! SUPPORT. The fields of an assembled word, its bits under the masks of spec/opcode_table.json, and the bytes of a word
read back. -/

namespace Sys2Proof

variable (f n : Nibble) (x y : Reg) (nn : Byte) (nnn : Addr12)

@[simp] theorem fieldF_wordXYN : fieldF (wordXYN f x y n) = f := by
  apply BitVec.eq_of_getLsbD_eq
  intro i hi
  simp only [fieldF, wordXYN, BitVec.getLsbD_extractLsb', BitVec.getLsbD_append]
  interval_cases i <;> simp

@[simp] theorem fieldX_wordXYN : fieldX (wordXYN f x y n) = x := by
  have h : (wordXYN f x y n).extractLsb' 8 4 = BitVec.ofFin x := by
    apply BitVec.eq_of_getLsbD_eq
    intro i hi
    simp only [wordXYN, BitVec.getLsbD_extractLsb', BitVec.getLsbD_append]
    interval_cases i <;> simp
  simp [fieldX, h]

@[simp] theorem fieldY_wordXYN : fieldY (wordXYN f x y n) = y := by
  have h : (wordXYN f x y n).extractLsb' 4 4 = BitVec.ofFin y := by
    apply BitVec.eq_of_getLsbD_eq
    intro i hi
    simp only [wordXYN, BitVec.getLsbD_extractLsb', BitVec.getLsbD_append]
    interval_cases i <;> simp
  simp [fieldY, h]

@[simp] theorem fieldN_wordXYN : fieldN (wordXYN f x y n) = n := by
  apply BitVec.eq_of_getLsbD_eq
  intro i hi
  simp only [fieldN, wordXYN, BitVec.getLsbD_extractLsb', BitVec.getLsbD_append]
  interval_cases i <;> simp

@[simp] theorem fieldF_wordXNN : fieldF (wordXNN f x nn) = f := by
  apply BitVec.eq_of_getLsbD_eq
  intro i hi
  simp only [fieldF, wordXNN, BitVec.getLsbD_extractLsb', BitVec.getLsbD_append]
  interval_cases i <;> simp

@[simp] theorem fieldX_wordXNN : fieldX (wordXNN f x nn) = x := by
  have h : (wordXNN f x nn).extractLsb' 8 4 = BitVec.ofFin x := by
    apply BitVec.eq_of_getLsbD_eq
    intro i hi
    simp only [wordXNN, BitVec.getLsbD_extractLsb', BitVec.getLsbD_append]
    interval_cases i <;> simp
  simp [fieldX, h]

@[simp] theorem fieldNN_wordXNN : fieldNN (wordXNN f x nn) = nn := by
  apply BitVec.eq_of_getLsbD_eq
  intro i hi
  simp only [fieldNN, wordXNN, BitVec.getLsbD_extractLsb', BitVec.getLsbD_append]
  interval_cases i <;> simp

@[simp] theorem fieldF_wordNNN : fieldF (wordNNN f nnn) = f := by
  apply BitVec.eq_of_getLsbD_eq
  intro i hi
  simp only [fieldF, wordNNN, BitVec.getLsbD_extractLsb', BitVec.getLsbD_append]
  interval_cases i <;> simp

@[simp] theorem fieldNNN_wordNNN : fieldNNN (wordNNN f nnn) = nnn := by
  apply BitVec.eq_of_getLsbD_eq
  intro i hi
  simp only [fieldNNN, wordNNN, BitVec.getLsbD_extractLsb', BitVec.getLsbD_append]
  interval_cases i <;> simp

@[simp] theorem fieldX_wordNNN : fieldX (wordNNN f nnn) = (nnn.extractLsb' 8 4).toFin := by
  have h : (wordNNN f nnn).extractLsb' 8 4 = nnn.extractLsb' 8 4 := by
    apply BitVec.eq_of_getLsbD_eq
    intro i hi
    simp only [wordNNN, BitVec.getLsbD_extractLsb', BitVec.getLsbD_append]
    interval_cases i <;> simp
  simp [fieldX, h]

theorem wordXYN_and_F00F : wordXYN f x y n &&& 0xF00F = wordXYN f 0 0 n := by
  apply BitVec.eq_of_getLsbD_eq
  intro i hi
  simp only [wordXYN, BitVec.getLsbD_and, BitVec.getLsbD_append]
  interval_cases i <;> simp

theorem wordXYN_and_F000 : wordXYN f x y n &&& 0xF000 = wordXYN f 0 0 0 := by
  apply BitVec.eq_of_getLsbD_eq
  intro i hi
  simp only [wordXYN, BitVec.getLsbD_and, BitVec.getLsbD_append]
  interval_cases i <;> simp

theorem wordXNN_and_F0FF : wordXNN f x nn &&& 0xF0FF = wordXNN f 0 nn := by
  apply BitVec.eq_of_getLsbD_eq
  intro i hi
  simp only [wordXNN, BitVec.getLsbD_and, BitVec.getLsbD_append]
  interval_cases i <;> simp

theorem wordXNN_and_F000 : wordXNN f x nn &&& 0xF000 = wordXNN f 0 0 := by
  apply BitVec.eq_of_getLsbD_eq
  intro i hi
  simp only [wordXNN, BitVec.getLsbD_and, BitVec.getLsbD_append]
  interval_cases i <;> simp

theorem wordNNN_and_F000 : wordNNN f nnn &&& 0xF000 = wordNNN f 0 := by
  apply BitVec.eq_of_getLsbD_eq
  intro i hi
  simp only [wordNNN, BitVec.getLsbD_and, BitVec.getLsbD_append]
  interval_cases i <;> simp

/-- The bytes of a word, high byte first, are that word again (R48). -/
@[simp] theorem wordOfBytes_bytes (w : Word) : wordOfBytes (w.extractLsb' 8 8) (w.extractLsb' 0 8) = w := by
  apply BitVec.eq_of_getLsbD_eq
  intro i hi
  simp only [wordOfBytes, BitVec.getLsbD_extractLsb', BitVec.getLsbD_append]
  interval_cases i <;> simp

/-- A word is its four fields. -/
theorem eq_wordXYN (w : Word) : w = wordXYN (fieldF w) (fieldX w) (fieldY w) (fieldN w) := by
  apply BitVec.eq_of_getLsbD_eq
  intro i hi
  simp only [fieldF, fieldX, fieldY, fieldN, wordXYN, BitVec.getLsbD_append, BitVec.ofFin_toFin,
    BitVec.getLsbD_extractLsb']
  interval_cases i <;> simp

/-- A word is its family, X and NN. -/
theorem eq_wordXNN (w : Word) : w = wordXNN (fieldF w) (fieldX w) (fieldNN w) := by
  apply BitVec.eq_of_getLsbD_eq
  intro i hi
  simp only [fieldF, fieldX, fieldNN, wordXNN, BitVec.getLsbD_append, BitVec.ofFin_toFin, BitVec.getLsbD_extractLsb']
  interval_cases i <;> simp

/-- A word is its family and NNN. -/
theorem eq_wordNNN (w : Word) : w = wordNNN (fieldF w) (fieldNNN w) := by
  apply BitVec.eq_of_getLsbD_eq
  intro i hi
  simp only [fieldF, fieldNNN, wordNNN, BitVec.getLsbD_append, BitVec.getLsbD_extractLsb']
  interval_cases i <;> simp

end Sys2Proof
end

