-- ==== Sys2Proof/Laws/State.lean ====
section
/-! SUPPORT. One lemma per field per named update of State, so that no later proof unfolds a record update; and reading a
register after writing one. -/

namespace Sys2Proof.Machine

variable (s : State)

/-! ### Updates by the core -/

@[simp] theorem State.setV_cfg (r : Reg) (b : Byte) : (s.setV r b).cfg = s.cfg := rfl
@[simp] theorem State.setV_mem (r : Reg) (b : Byte) : (s.setV r b).mem = s.mem := rfl
@[simp] theorem State.setV_v (r : Reg) (b : Byte) : (s.setV r b).v = s.v.set r b := rfl
@[simp] theorem State.setV_i (r : Reg) (b : Byte) : (s.setV r b).i = s.i := rfl
@[simp] theorem State.setV_pc (r : Reg) (b : Byte) : (s.setV r b).pc = s.pc := rfl
@[simp] theorem State.setV_stack (r : Reg) (b : Byte) : (s.setV r b).stack = s.stack := rfl
@[simp] theorem State.setV_dt (r : Reg) (b : Byte) : (s.setV r b).dt = s.dt := rfl
@[simp] theorem State.setV_st (r : Reg) (b : Byte) : (s.setV r b).st = s.st := rfl
@[simp] theorem State.setV_fb (r : Reg) (b : Byte) : (s.setV r b).fb = s.fb := rfl
@[simp] theorem State.setV_key (r : Reg) (b : Byte) : (s.setV r b).key = s.key := rfl
@[simp] theorem State.setV_opcode (r : Reg) (b : Byte) : (s.setV r b).opcode = s.opcode := rfl
@[simp] theorem State.setV_dirty (r : Reg) (b : Byte) : (s.setV r b).dirty = s.dirty := rfl
@[simp] theorem State.setV_drew (r : Reg) (b : Byte) : (s.setV r b).drew = s.drew := rfl
@[simp] theorem State.setV_fault (r : Reg) (b : Byte) : (s.setV r b).fault = s.fault := rfl
@[simp] theorem State.setV_unkSeen (r : Reg) (b : Byte) : (s.setV r b).unkSeen = s.unkSeen := rfl
@[simp] theorem State.setV_unkLast (r : Reg) (b : Byte) : (s.setV r b).unkLast = s.unkLast := rfl
@[simp] theorem State.setV_loaded (r : Reg) (b : Byte) : (s.setV r b).loaded = s.loaded := rfl
@[simp] theorem State.setV_draws (r : Reg) (b : Byte) : (s.setV r b).draws = s.draws := rfl

@[simp] theorem State.setI_cfg (a : Word) : (s.setI a).cfg = s.cfg := rfl
@[simp] theorem State.setI_mem (a : Word) : (s.setI a).mem = s.mem := rfl
@[simp] theorem State.setI_v (a : Word) : (s.setI a).v = s.v := rfl
@[simp] theorem State.setI_i (a : Word) : (s.setI a).i = a := rfl
@[simp] theorem State.setI_pc (a : Word) : (s.setI a).pc = s.pc := rfl
@[simp] theorem State.setI_stack (a : Word) : (s.setI a).stack = s.stack := rfl
@[simp] theorem State.setI_dt (a : Word) : (s.setI a).dt = s.dt := rfl
@[simp] theorem State.setI_st (a : Word) : (s.setI a).st = s.st := rfl
@[simp] theorem State.setI_fb (a : Word) : (s.setI a).fb = s.fb := rfl
@[simp] theorem State.setI_key (a : Word) : (s.setI a).key = s.key := rfl
@[simp] theorem State.setI_opcode (a : Word) : (s.setI a).opcode = s.opcode := rfl
@[simp] theorem State.setI_dirty (a : Word) : (s.setI a).dirty = s.dirty := rfl
@[simp] theorem State.setI_drew (a : Word) : (s.setI a).drew = s.drew := rfl
@[simp] theorem State.setI_fault (a : Word) : (s.setI a).fault = s.fault := rfl
@[simp] theorem State.setI_unkSeen (a : Word) : (s.setI a).unkSeen = s.unkSeen := rfl
@[simp] theorem State.setI_unkLast (a : Word) : (s.setI a).unkLast = s.unkLast := rfl
@[simp] theorem State.setI_loaded (a : Word) : (s.setI a).loaded = s.loaded := rfl
@[simp] theorem State.setI_draws (a : Word) : (s.setI a).draws = s.draws := rfl

@[simp] theorem State.setPc_cfg (a : Word) : (s.setPc a).cfg = s.cfg := rfl
@[simp] theorem State.setPc_mem (a : Word) : (s.setPc a).mem = s.mem := rfl
@[simp] theorem State.setPc_v (a : Word) : (s.setPc a).v = s.v := rfl
@[simp] theorem State.setPc_i (a : Word) : (s.setPc a).i = s.i := rfl
@[simp] theorem State.setPc_pc (a : Word) : (s.setPc a).pc = a := rfl
@[simp] theorem State.setPc_stack (a : Word) : (s.setPc a).stack = s.stack := rfl
@[simp] theorem State.setPc_dt (a : Word) : (s.setPc a).dt = s.dt := rfl
@[simp] theorem State.setPc_st (a : Word) : (s.setPc a).st = s.st := rfl
@[simp] theorem State.setPc_fb (a : Word) : (s.setPc a).fb = s.fb := rfl
@[simp] theorem State.setPc_key (a : Word) : (s.setPc a).key = s.key := rfl
@[simp] theorem State.setPc_opcode (a : Word) : (s.setPc a).opcode = s.opcode := rfl
@[simp] theorem State.setPc_dirty (a : Word) : (s.setPc a).dirty = s.dirty := rfl
@[simp] theorem State.setPc_drew (a : Word) : (s.setPc a).drew = s.drew := rfl
@[simp] theorem State.setPc_fault (a : Word) : (s.setPc a).fault = s.fault := rfl
@[simp] theorem State.setPc_unkSeen (a : Word) : (s.setPc a).unkSeen = s.unkSeen := rfl
@[simp] theorem State.setPc_unkLast (a : Word) : (s.setPc a).unkLast = s.unkLast := rfl
@[simp] theorem State.setPc_loaded (a : Word) : (s.setPc a).loaded = s.loaded := rfl
@[simp] theorem State.setPc_draws (a : Word) : (s.setPc a).draws = s.draws := rfl

@[simp] theorem State.skip_cfg : (s.skip).cfg = s.cfg := rfl
@[simp] theorem State.skip_mem : (s.skip).mem = s.mem := rfl
@[simp] theorem State.skip_v : (s.skip).v = s.v := rfl
@[simp] theorem State.skip_i : (s.skip).i = s.i := rfl
@[simp] theorem State.skip_pc : (s.skip).pc = s.pc + 2 := rfl
@[simp] theorem State.skip_stack : (s.skip).stack = s.stack := rfl
@[simp] theorem State.skip_dt : (s.skip).dt = s.dt := rfl
@[simp] theorem State.skip_st : (s.skip).st = s.st := rfl
@[simp] theorem State.skip_fb : (s.skip).fb = s.fb := rfl
@[simp] theorem State.skip_key : (s.skip).key = s.key := rfl
@[simp] theorem State.skip_opcode : (s.skip).opcode = s.opcode := rfl
@[simp] theorem State.skip_dirty : (s.skip).dirty = s.dirty := rfl
@[simp] theorem State.skip_drew : (s.skip).drew = s.drew := rfl
@[simp] theorem State.skip_fault : (s.skip).fault = s.fault := rfl
@[simp] theorem State.skip_unkSeen : (s.skip).unkSeen = s.unkSeen := rfl
@[simp] theorem State.skip_unkLast : (s.skip).unkLast = s.unkLast := rfl
@[simp] theorem State.skip_loaded : (s.skip).loaded = s.loaded := rfl
@[simp] theorem State.skip_draws : (s.skip).draws = s.draws := rfl

@[simp] theorem State.raise_cfg (c : FaultCode) (info : Option Nat) : (s.raise c info).cfg = s.cfg := rfl
@[simp] theorem State.raise_mem (c : FaultCode) (info : Option Nat) : (s.raise c info).mem = s.mem := rfl
@[simp] theorem State.raise_v (c : FaultCode) (info : Option Nat) : (s.raise c info).v = s.v := rfl
@[simp] theorem State.raise_i (c : FaultCode) (info : Option Nat) : (s.raise c info).i = s.i := rfl
@[simp] theorem State.raise_pc (c : FaultCode) (info : Option Nat) : (s.raise c info).pc = s.pc := rfl
@[simp] theorem State.raise_stack (c : FaultCode) (info : Option Nat) : (s.raise c info).stack = s.stack := rfl
@[simp] theorem State.raise_dt (c : FaultCode) (info : Option Nat) : (s.raise c info).dt = s.dt := rfl
@[simp] theorem State.raise_st (c : FaultCode) (info : Option Nat) : (s.raise c info).st = s.st := rfl
@[simp] theorem State.raise_fb (c : FaultCode) (info : Option Nat) : (s.raise c info).fb = s.fb := rfl
@[simp] theorem State.raise_key (c : FaultCode) (info : Option Nat) : (s.raise c info).key = s.key := rfl
@[simp] theorem State.raise_opcode (c : FaultCode) (info : Option Nat) : (s.raise c info).opcode = s.opcode := rfl
@[simp] theorem State.raise_dirty (c : FaultCode) (info : Option Nat) : (s.raise c info).dirty = s.dirty := rfl
@[simp] theorem State.raise_drew (c : FaultCode) (info : Option Nat) : (s.raise c info).drew = s.drew := rfl
@[simp] theorem State.raise_fault (c : FaultCode) (info : Option Nat) : (s.raise c info).fault = { code := c, pc := s.pc - 2, op := some s.opcode, addr := info } := rfl
@[simp] theorem State.raise_unkSeen (c : FaultCode) (info : Option Nat) : (s.raise c info).unkSeen = s.unkSeen := rfl
@[simp] theorem State.raise_unkLast (c : FaultCode) (info : Option Nat) : (s.raise c info).unkLast = s.unkLast := rfl
@[simp] theorem State.raise_loaded (c : FaultCode) (info : Option Nat) : (s.raise c info).loaded = s.loaded := rfl
@[simp] theorem State.raise_draws (c : FaultCode) (info : Option Nat) : (s.raise c info).draws = s.draws := rfl

@[simp] theorem State.fetched_cfg (d : Bool) : (s.fetched d).cfg = s.cfg := rfl
@[simp] theorem State.fetched_mem (d : Bool) : (s.fetched d).mem = s.mem := rfl
@[simp] theorem State.fetched_v (d : Bool) : (s.fetched d).v = s.v := rfl
@[simp] theorem State.fetched_i (d : Bool) : (s.fetched d).i = s.i := rfl
@[simp] theorem State.fetched_pc (d : Bool) : (s.fetched d).pc = s.pc + 2 := rfl
@[simp] theorem State.fetched_stack (d : Bool) : (s.fetched d).stack = s.stack := rfl
@[simp] theorem State.fetched_dt (d : Bool) : (s.fetched d).dt = s.dt := rfl
@[simp] theorem State.fetched_st (d : Bool) : (s.fetched d).st = s.st := rfl
@[simp] theorem State.fetched_fb (d : Bool) : (s.fetched d).fb = s.fb := rfl
@[simp] theorem State.fetched_key (d : Bool) : (s.fetched d).key = s.key := rfl
@[simp] theorem State.fetched_opcode (d : Bool) : (s.fetched d).opcode = s.fetchWord := rfl
@[simp] theorem State.fetched_dirty (d : Bool) : (s.fetched d).dirty = s.dirty := rfl
@[simp] theorem State.fetched_drew (d : Bool) : (s.fetched d).drew = d := rfl
@[simp] theorem State.fetched_fault (d : Bool) : (s.fetched d).fault = s.fault := rfl
@[simp] theorem State.fetched_unkSeen (d : Bool) : (s.fetched d).unkSeen = s.unkSeen := rfl
@[simp] theorem State.fetched_unkLast (d : Bool) : (s.fetched d).unkLast = s.unkLast := rfl
@[simp] theorem State.fetched_loaded (d : Bool) : (s.fetched d).loaded = s.loaded := rfl
@[simp] theorem State.fetched_draws (d : Bool) : (s.fetched d).draws = s.draws := rfl

@[simp] theorem State.raiseFetch_cfg : (s.raiseFetch).cfg = s.cfg := rfl
@[simp] theorem State.raiseFetch_mem : (s.raiseFetch).mem = s.mem := rfl
@[simp] theorem State.raiseFetch_v : (s.raiseFetch).v = s.v := rfl
@[simp] theorem State.raiseFetch_i : (s.raiseFetch).i = s.i := rfl
@[simp] theorem State.raiseFetch_pc : (s.raiseFetch).pc = s.pc := rfl
@[simp] theorem State.raiseFetch_stack : (s.raiseFetch).stack = s.stack := rfl
@[simp] theorem State.raiseFetch_dt : (s.raiseFetch).dt = s.dt := rfl
@[simp] theorem State.raiseFetch_st : (s.raiseFetch).st = s.st := rfl
@[simp] theorem State.raiseFetch_fb : (s.raiseFetch).fb = s.fb := rfl
@[simp] theorem State.raiseFetch_key : (s.raiseFetch).key = s.key := rfl
@[simp] theorem State.raiseFetch_opcode : (s.raiseFetch).opcode = s.opcode := rfl
@[simp] theorem State.raiseFetch_dirty : (s.raiseFetch).dirty = s.dirty := rfl
@[simp] theorem State.raiseFetch_drew : (s.raiseFetch).drew = s.drew := rfl
@[simp] theorem State.raiseFetch_fault : (s.raiseFetch).fault = { code := .fetchOutOfRange, pc := s.pc, op := none, addr := some (firstOutside s.pc.toNat) } := rfl
@[simp] theorem State.raiseFetch_unkSeen : (s.raiseFetch).unkSeen = s.unkSeen := rfl
@[simp] theorem State.raiseFetch_unkLast : (s.raiseFetch).unkLast = s.unkLast := rfl
@[simp] theorem State.raiseFetch_loaded : (s.raiseFetch).loaded = s.loaded := rfl
@[simp] theorem State.raiseFetch_draws : (s.raiseFetch).draws = s.draws := rfl

@[simp] theorem State.writeWithFlag_cfg (r : Reg) (b : Byte) (c : Bool) : (s.writeWithFlag r b c).cfg = s.cfg := rfl
@[simp] theorem State.writeWithFlag_mem (r : Reg) (b : Byte) (c : Bool) : (s.writeWithFlag r b c).mem = s.mem := rfl
@[simp] theorem State.writeWithFlag_v (r : Reg) (b : Byte) (c : Bool) : (s.writeWithFlag r b c).v = (s.v.set r b).set VF (flagByte c) := rfl
@[simp] theorem State.writeWithFlag_i (r : Reg) (b : Byte) (c : Bool) : (s.writeWithFlag r b c).i = s.i := rfl
@[simp] theorem State.writeWithFlag_pc (r : Reg) (b : Byte) (c : Bool) : (s.writeWithFlag r b c).pc = s.pc := rfl
@[simp] theorem State.writeWithFlag_stack (r : Reg) (b : Byte) (c : Bool) : (s.writeWithFlag r b c).stack = s.stack := rfl
@[simp] theorem State.writeWithFlag_dt (r : Reg) (b : Byte) (c : Bool) : (s.writeWithFlag r b c).dt = s.dt := rfl
@[simp] theorem State.writeWithFlag_st (r : Reg) (b : Byte) (c : Bool) : (s.writeWithFlag r b c).st = s.st := rfl
@[simp] theorem State.writeWithFlag_fb (r : Reg) (b : Byte) (c : Bool) : (s.writeWithFlag r b c).fb = s.fb := rfl
@[simp] theorem State.writeWithFlag_key (r : Reg) (b : Byte) (c : Bool) : (s.writeWithFlag r b c).key = s.key := rfl
@[simp] theorem State.writeWithFlag_opcode (r : Reg) (b : Byte) (c : Bool) : (s.writeWithFlag r b c).opcode = s.opcode := rfl
@[simp] theorem State.writeWithFlag_dirty (r : Reg) (b : Byte) (c : Bool) : (s.writeWithFlag r b c).dirty = s.dirty := rfl
@[simp] theorem State.writeWithFlag_drew (r : Reg) (b : Byte) (c : Bool) : (s.writeWithFlag r b c).drew = s.drew := rfl
@[simp] theorem State.writeWithFlag_fault (r : Reg) (b : Byte) (c : Bool) : (s.writeWithFlag r b c).fault = s.fault := rfl
@[simp] theorem State.writeWithFlag_unkSeen (r : Reg) (b : Byte) (c : Bool) : (s.writeWithFlag r b c).unkSeen = s.unkSeen := rfl
@[simp] theorem State.writeWithFlag_unkLast (r : Reg) (b : Byte) (c : Bool) : (s.writeWithFlag r b c).unkLast = s.unkLast := rfl
@[simp] theorem State.writeWithFlag_loaded (r : Reg) (b : Byte) (c : Bool) : (s.writeWithFlag r b c).loaded = s.loaded := rfl
@[simp] theorem State.writeWithFlag_draws (r : Reg) (b : Byte) (c : Bool) : (s.writeWithFlag r b c).draws = s.draws := rfl

/-! ### Updates by the host -/

@[simp] theorem State.tick_cfg : (s.tick).cfg = s.cfg := rfl
@[simp] theorem State.tick_mem : (s.tick).mem = s.mem := rfl
@[simp] theorem State.tick_v : (s.tick).v = s.v := rfl
@[simp] theorem State.tick_i : (s.tick).i = s.i := rfl
@[simp] theorem State.tick_pc : (s.tick).pc = s.pc := rfl
@[simp] theorem State.tick_stack : (s.tick).stack = s.stack := rfl
@[simp] theorem State.tick_dt : (s.tick).dt = countDown s.dt := rfl
@[simp] theorem State.tick_st : (s.tick).st = countDown s.st := rfl
@[simp] theorem State.tick_fb : (s.tick).fb = s.fb := rfl
@[simp] theorem State.tick_key : (s.tick).key = s.key := rfl
@[simp] theorem State.tick_opcode : (s.tick).opcode = s.opcode := rfl
@[simp] theorem State.tick_dirty : (s.tick).dirty = s.dirty := rfl
@[simp] theorem State.tick_drew : (s.tick).drew = s.drew := rfl
@[simp] theorem State.tick_fault : (s.tick).fault = s.fault := rfl
@[simp] theorem State.tick_unkSeen : (s.tick).unkSeen = s.unkSeen := rfl
@[simp] theorem State.tick_unkLast : (s.tick).unkLast = s.unkLast := rfl
@[simp] theorem State.tick_loaded : (s.tick).loaded = s.loaded := rfl
@[simp] theorem State.tick_draws : (s.tick).draws = s.draws := rfl

@[simp] theorem State.keyDown_cfg (k : Key) : (s.keyDown k).cfg = s.cfg := rfl
@[simp] theorem State.keyDown_mem (k : Key) : (s.keyDown k).mem = s.mem := rfl
@[simp] theorem State.keyDown_v (k : Key) : (s.keyDown k).v = s.v := rfl
@[simp] theorem State.keyDown_i (k : Key) : (s.keyDown k).i = s.i := rfl
@[simp] theorem State.keyDown_pc (k : Key) : (s.keyDown k).pc = s.pc := rfl
@[simp] theorem State.keyDown_stack (k : Key) : (s.keyDown k).stack = s.stack := rfl
@[simp] theorem State.keyDown_dt (k : Key) : (s.keyDown k).dt = s.dt := rfl
@[simp] theorem State.keyDown_st (k : Key) : (s.keyDown k).st = s.st := rfl
@[simp] theorem State.keyDown_fb (k : Key) : (s.keyDown k).fb = s.fb := rfl
@[simp] theorem State.keyDown_key (k : Key) : (s.keyDown k).key = s.key.set k true := rfl
@[simp] theorem State.keyDown_opcode (k : Key) : (s.keyDown k).opcode = s.opcode := rfl
@[simp] theorem State.keyDown_dirty (k : Key) : (s.keyDown k).dirty = s.dirty := rfl
@[simp] theorem State.keyDown_drew (k : Key) : (s.keyDown k).drew = s.drew := rfl
@[simp] theorem State.keyDown_fault (k : Key) : (s.keyDown k).fault = s.fault := rfl
@[simp] theorem State.keyDown_unkSeen (k : Key) : (s.keyDown k).unkSeen = s.unkSeen := rfl
@[simp] theorem State.keyDown_unkLast (k : Key) : (s.keyDown k).unkLast = s.unkLast := rfl
@[simp] theorem State.keyDown_loaded (k : Key) : (s.keyDown k).loaded = s.loaded := rfl
@[simp] theorem State.keyDown_draws (k : Key) : (s.keyDown k).draws = s.draws := rfl

@[simp] theorem State.keyUp_cfg (k : Key) : (s.keyUp k).cfg = s.cfg := rfl
@[simp] theorem State.keyUp_mem (k : Key) : (s.keyUp k).mem = s.mem := rfl
@[simp] theorem State.keyUp_v (k : Key) : (s.keyUp k).v = s.v := rfl
@[simp] theorem State.keyUp_i (k : Key) : (s.keyUp k).i = s.i := rfl
@[simp] theorem State.keyUp_pc (k : Key) : (s.keyUp k).pc = s.pc := rfl
@[simp] theorem State.keyUp_stack (k : Key) : (s.keyUp k).stack = s.stack := rfl
@[simp] theorem State.keyUp_dt (k : Key) : (s.keyUp k).dt = s.dt := rfl
@[simp] theorem State.keyUp_st (k : Key) : (s.keyUp k).st = s.st := rfl
@[simp] theorem State.keyUp_fb (k : Key) : (s.keyUp k).fb = s.fb := rfl
@[simp] theorem State.keyUp_key (k : Key) : (s.keyUp k).key = s.key.set k false := rfl
@[simp] theorem State.keyUp_opcode (k : Key) : (s.keyUp k).opcode = s.opcode := rfl
@[simp] theorem State.keyUp_dirty (k : Key) : (s.keyUp k).dirty = s.dirty := rfl
@[simp] theorem State.keyUp_drew (k : Key) : (s.keyUp k).drew = s.drew := rfl
@[simp] theorem State.keyUp_fault (k : Key) : (s.keyUp k).fault = s.fault := rfl
@[simp] theorem State.keyUp_unkSeen (k : Key) : (s.keyUp k).unkSeen = s.unkSeen := rfl
@[simp] theorem State.keyUp_unkLast (k : Key) : (s.keyUp k).unkLast = s.unkLast := rfl
@[simp] theorem State.keyUp_loaded (k : Key) : (s.keyUp k).loaded = s.loaded := rfl
@[simp] theorem State.keyUp_draws (k : Key) : (s.keyUp k).draws = s.draws := rfl

@[simp] theorem State.clearDirty_cfg : (s.clearDirty).cfg = s.cfg := rfl
@[simp] theorem State.clearDirty_mem : (s.clearDirty).mem = s.mem := rfl
@[simp] theorem State.clearDirty_v : (s.clearDirty).v = s.v := rfl
@[simp] theorem State.clearDirty_i : (s.clearDirty).i = s.i := rfl
@[simp] theorem State.clearDirty_pc : (s.clearDirty).pc = s.pc := rfl
@[simp] theorem State.clearDirty_stack : (s.clearDirty).stack = s.stack := rfl
@[simp] theorem State.clearDirty_dt : (s.clearDirty).dt = s.dt := rfl
@[simp] theorem State.clearDirty_st : (s.clearDirty).st = s.st := rfl
@[simp] theorem State.clearDirty_fb : (s.clearDirty).fb = s.fb := rfl
@[simp] theorem State.clearDirty_key : (s.clearDirty).key = s.key := rfl
@[simp] theorem State.clearDirty_opcode : (s.clearDirty).opcode = s.opcode := rfl
@[simp] theorem State.clearDirty_dirty : (s.clearDirty).dirty = false := rfl
@[simp] theorem State.clearDirty_drew : (s.clearDirty).drew = s.drew := rfl
@[simp] theorem State.clearDirty_fault : (s.clearDirty).fault = s.fault := rfl
@[simp] theorem State.clearDirty_unkSeen : (s.clearDirty).unkSeen = s.unkSeen := rfl
@[simp] theorem State.clearDirty_unkLast : (s.clearDirty).unkLast = s.unkLast := rfl
@[simp] theorem State.clearDirty_loaded : (s.clearDirty).loaded = s.loaded := rfl
@[simp] theorem State.clearDirty_draws : (s.clearDirty).draws = s.draws := rfl

/-! ### Registers and keys -/

/-- Reading a register after a write: the register written holds the value, every other one is left alone (R16). -/
theorem State.getV_setV (r q : Reg) (b : Byte) : (s.setV r b).getV q = if q = r then b else s.getV q := by
  unfold State.getV State.setV
  simp only [Fin.getElem_fin, Vector.getElem_set, Fin.ext_iff, eq_comm]

/-- VF holds the flag, VX the result unless X = F, every other register is left alone (R90). -/
theorem State.getV_writeWithFlag (x q : Reg) (res : Byte) (flag : Bool) :
    (s.writeWithFlag x res flag).getV q = if q = VF then flagByte flag else if q = x then res else s.getV q := by
  rw [State.writeWithFlag, State.getV_setV, State.getV_setV]

/-- A register is read from `v` alone. -/
theorem State.getV_congr {t : State} (h : t.v = s.v) (r : Reg) : t.getV r = s.getV r := by
  rw [State.getV, State.getV, h]

/-- The key state after KeyDown (R129). -/
theorem State.key_keyDown (k j : Key) : (s.keyDown k).key[j] = if j = k then true else s.key[j] := by
  unfold State.keyDown
  simp only [Fin.getElem_fin, Vector.getElem_set, Fin.ext_iff, eq_comm]

/-- The key state after KeyUp (R129). -/
theorem State.key_keyUp (k j : Key) : (s.keyUp k).key[j] = if j = k then false else s.key[j] := by
  unfold State.keyUp
  simp only [Fin.getElem_fin, Vector.getElem_set, Fin.ext_iff, eq_comm]

end Sys2Proof.Machine
end

