-- ==== Sys2Proof/Laws/Display.lean ====
section
/-! SUPPORT. The framebuffer: reading a cell after toggling one, and a list of XORs over cells. -/

namespace Sys2Proof.Machine

/-- A toggle inverts the cell it names and leaves every other cell alone (R110). -/
theorem Frame.pixel_toggle (f : Frame) (k j : Fin 2048) :
    (f.toggle k).pixel j = if j = k then !f.pixel k else f.pixel j := by
  unfold Frame.pixel Frame.toggle
  have hj := j.isLt
  have hk := k.isLt
  simp only [Vector.getElem_set]
  by_cases hr : k.val / 64 = j.val / 64
  · have h64 : k.val % 64 < 64 := Nat.mod_lt _ (by decide)
    rw [if_pos hr, BitVec.getLsbD_xor, BitVec.getLsbD_twoPow]
    by_cases hjk : j = k
    · subst hjk
      simp [h64]
    · have hm : ¬ (k.val % 64 = j.val % 64) := fun hm => hjk (Fin.ext (by omega))
      simp only [if_neg hjk, hm, hr, decide_false, Bool.and_false, Bool.xor_false]
  · rw [if_neg hr, if_neg (fun h => hr (by rw [h]))]

/-- A cleared framebuffer is off at every cell (R109). -/
theorem Frame.pixel_clear (k : Fin 2048) : Frame.clear.pixel k = false := by
  simp [Frame.pixel, Frame.clear]

/-- Two framebuffers with the same cells are the same. -/
theorem Frame.ext_pixel {f g : Frame} (h : ∀ k, f.pixel k = g.pixel k) : f = g := by
  apply Vector.ext
  intro y hy
  apply BitVec.eq_of_getLsbD_eq
  intro x hx
  have := h ⟨x + 64 * y, by omega⟩
  have hd : (x + 64 * y) / 64 = y := by omega
  have hm : (x + 64 * y) % 64 = x := by omega
  simpa only [Frame.pixel, hd, hm] using this

/-- XORs over cells that are all different: each of them is inverted, and `hit` tells whether one of them was on. -/
theorem foldl_xorCell (l : List (Fin 2048)) (hl : l.Nodup) (p : Canvas) :
    (∀ j, (l.foldl xorCell p).1.pixel j = (p.1.pixel j ^^ decide (j ∈ l))) ∧
      (l.foldl xorCell p).2 = (p.2 || l.any (fun k => p.1.pixel k)) := by
  induction l generalizing p with
  | nil => simp
  | cons k l ih =>
    obtain ⟨hk, hl⟩ := List.nodup_cons.1 hl
    obtain ⟨h1, h2⟩ := ih hl (xorCell p k)
    refine ⟨fun j => ?_, ?_⟩
    · rw [List.foldl_cons, h1]
      simp only [xorCell, Frame.pixel_toggle, List.mem_cons]
      by_cases hj : j = k
      · subst hj; simp [hk]
      · simp [hj]
    · rw [List.foldl_cons, h2]
      have : l.any (fun q => (xorCell p k).1.pixel q) = l.any (fun q => p.1.pixel q) := by
        rw [Bool.eq_iff_iff, List.any_eq_true, List.any_eq_true]
        refine exists_congr fun q => and_congr_right fun hq => ?_
        rw [xorCell, Frame.pixel_toggle, if_neg (fun (h : q = k) => hk (h ▸ hq))]
      rw [this]
      simp [xorCell, Bool.or_assoc]

/-- Membership in the cells of a sprite: some set pixel of some row falls there. -/
theorem mem_spriteCells {wrap : SpriteWrap} {m : Memory} {a x y n : Nat} {k : Fin 2048} :
    k ∈ spriteCells wrap m a x y n ↔
      ∃ r c, r < n ∧ c < 8 ∧ rowPixel (m.read (a + r)) c = true ∧ spriteCell wrap (x + c) (y + r) = some k := by
  simp only [spriteCells, rowCells, List.mem_flatMap, List.mem_range, List.mem_filterMap]
  constructor
  · rintro ⟨r, hr, c, hc, h⟩
    split at h
    · exact ⟨r, c, hr, hc, ‹_›, h⟩
    · cases h
  · rintro ⟨r, c, hr, hc, hp, h⟩
    exact ⟨r, hr, c, hc, by rw [if_pos hp]; exact h⟩

/-- Two pixels of a sprite at different places fall on different cells (R110). -/
theorem spriteCell_inj {wrap : SpriteWrap} {x y c r c' r' : Nat} {k : Fin 2048} (hc : c < 8) (hc' : c' < 8)
    (hr : r < 16) (hr' : r' < 16) (h : spriteCell wrap (x + c) (y + r) = some k)
    (h' : spriteCell wrap (x + c') (y + r') = some k) : c = c' ∧ r = r' := by
  cases wrap
  · simp only [spriteCell, Option.some.injEq] at h h'
    have e := congrArg Fin.val (h.trans h'.symm)
    simp only at e
    omega
  · simp only [spriteCell] at h h'
    split at h <;> split at h' <;> simp_all
    have e := congrArg Fin.val (h.trans h'.symm)
    simp only at e
    omega
  · simp only [spriteCell, Option.some.injEq] at h h'
    have e := congrArg Fin.val (h.trans h'.symm)
    simp only at e
    omega

/-- A filterMap that is injective on a list without repeats gives a list without repeats. -/
theorem nodup_filterMap_of_inj {α β : Type} {l : List α} {f : α → Option β} (hl : l.Nodup)
    (h : ∀ a ∈ l, ∀ a' ∈ l, ∀ b, b ∈ f a → b ∈ f a' → a = a') : (l.filterMap f).Nodup := by
  rw [List.Nodup, List.pairwise_filterMap]
  exact List.Pairwise.imp_of_mem (fun ha ha' hne b hb b' hb' hbb => hne (h _ ha _ ha' b hb (hbb ▸ hb'))) hl

/-- The cells of a sprite of at most 16 rows are all different (R110). -/
theorem nodup_spriteCells {wrap : SpriteWrap} {m : Memory} {a x y n : Nat} (hn : n ≤ 16) :
    (spriteCells wrap m a x y n).Nodup := by
  have key : ∀ {row : Byte} {r c : Nat} {k : Fin 2048},
      k ∈ (if rowPixel row c then spriteCell wrap (x + c) (y + r) else none) → spriteCell wrap (x + c) (y + r) = some k := by
    intro row r c k h
    split at h
    · exact h
    · cases h
  rw [spriteCells, List.nodup_flatMap]
  refine ⟨fun r hr => ?_, List.Pairwise.imp_of_mem ?_ (List.nodup_range (n := n))⟩
  · exact nodup_filterMap_of_inj List.nodup_range (fun c hc c' hc' k h h' => by
      rw [List.mem_range] at hr hc hc'
      exact (spriteCell_inj hc hc' (by omega) (by omega) (key h) (key h')).1)
  · intro r r' hr hr' hne k hk hk'
    obtain ⟨c, hc, h⟩ := List.mem_filterMap.1 hk
    obtain ⟨c', hc', h'⟩ := List.mem_filterMap.1 hk'
    rw [List.mem_range] at hr hr' hc hc'
    exact hne (spriteCell_inj hc hc' (by omega) (by omega) (key h) (key h')).2

/-- What DXYN draws: the cells of the sprite are inverted, and `hit` tells whether one of them was on (R110). -/
theorem drawCanvas_spec (s : State) (x y : Reg) (n : Nibble) :
    (∀ k, (drawCanvas s x y n).1.pixel k = (s.fb.pixel k ^^ decide (k ∈ drawCells s x y n))) ∧
      (drawCanvas s x y n).2 = (drawCells s x y n).any (fun k => s.fb.pixel k) := by
  have hl : (drawCells s x y n).Nodup := nodup_spriteCells (by have := n.isLt; omega)
  have := foldl_xorCell _ hl (s.fb, false)
  simpa [drawCanvas] using this

end Sys2Proof.Machine
end

