-- ==== Sys2Proof/Laws/Memory.lean ====
section
/-! SUPPORT. Memory: a read after a write, and that every memory operation keeps the canonical form. -/

namespace Sys2Proof.Machine

theorem Memory.wfFrom_cons {lo : Nat} {c : Host.Cell} {m : Memory} :
    Memory.wfFrom lo (c :: m) = true ↔
      lo ≤ c.1 ∧ c.1 < memSize ∧ c.2 ≠ Memory.unlisted c.1 ∧ Memory.wfFrom (c.1 + 1) m = true := by
  simp only [Memory.wfFrom, Bool.and_eq_true, decide_eq_true_eq]
  tauto

/-- A lower starting address asks less. -/
theorem Memory.wfFrom_mono {lo lo' : Nat} {m : Memory} (h : Memory.wfFrom lo m = true) (hl : lo' ≤ lo) :
    Memory.wfFrom lo' m = true := by
  cases m with
  | nil => rfl
  | cons c m =>
    rw [Memory.wfFrom_cons] at h ⊢
    exact ⟨hl.trans h.1, h.2⟩

/-- An address below every listed one reads as unlisted. -/
theorem Memory.read_of_lt {lo a : Nat} {m : Memory} (h : Memory.wfFrom lo m = true) (ha : a < lo) :
    Memory.read m a = Memory.unlisted a := by
  induction m generalizing lo with
  | nil => rfl
  | cons c m ih =>
    rw [Memory.wfFrom_cons] at h
    rw [Memory.read, if_neg (by omega)]
    exact ih h.2.2.2 (by omega)

theorem Memory.read_insert (m : Memory) (a q : Nat) (b : Byte) :
    Memory.read (Memory.insert m a b) q = if q = a then b else Memory.read m q := by
  induction m with
  | nil => simp [Memory.insert, Memory.read, eq_comm]
  | cons c m ih =>
    unfold Memory.insert
    split
    · simp [Memory.read, eq_comm]
    · split
      · rename_i h
        by_cases hq : q = a
        · simp [Memory.read, hq]
        · simp [Memory.read, hq, h, Ne.symm hq]
      · rename_i h
        by_cases hq : q = a
        · subst hq; simp [Memory.read, h, ih]
        · simp [Memory.read, ih, hq]

theorem Memory.read_erase {lo : Nat} {m : Memory} (h : Memory.wfFrom lo m = true) (a q : Nat) :
    Memory.read (Memory.erase m a) q = if q = a then Memory.unlisted a else Memory.read m q := by
  induction m generalizing lo with
  | nil => by_cases hq : q = a <;> simp [Memory.erase, Memory.read, hq]
  | cons c m ih =>
    rw [Memory.wfFrom_cons] at h
    unfold Memory.erase
    split
    · rename_i hc
      by_cases hq : q = a
      · subst hq; simp [Memory.read_of_lt h.2.2.2 (by omega : q < c.1 + 1)]
      · simp [Memory.read, hq, hc, Ne.symm hq]
    · rename_i hc
      by_cases hq : q = a
      · subst hq; simp [Memory.read, hc, ih h.2.2.2]
      · simp [Memory.read, ih h.2.2.2, hq]

/-- A read after a write gives the byte written, and a write leaves every other address alone. -/
theorem Memory.read_write {m : Memory} (h : m.wf = true) (a q : Nat) (b : Byte) :
    Memory.read (Memory.write m a b) q = if q = a then b else Memory.read m q := by
  unfold Memory.write
  split
  · rename_i hb
    rw [Memory.read_erase h, hb]
  · exact Memory.read_insert m a q b

theorem Memory.wfFrom_insert {lo : Nat} {m : Memory} (h : Memory.wfFrom lo m = true) {a : Nat} {b : Byte} (hl : lo ≤ a)
    (ha : a < memSize) (hb : b ≠ Memory.unlisted a) : Memory.wfFrom lo (Memory.insert m a b) = true := by
  induction m generalizing lo with
  | nil => exact Memory.wfFrom_cons.2 ⟨hl, ha, hb, rfl⟩
  | cons c m ih =>
    rw [Memory.wfFrom_cons] at h
    unfold Memory.insert
    split
    · rename_i hc
      exact Memory.wfFrom_cons.2 ⟨hl, ha, hb, Memory.wfFrom_cons.2 ⟨hc, h.2⟩⟩
    · split
      · rename_i hc
        exact Memory.wfFrom_cons.2 ⟨hl, ha, hb, by rw [← hc]; exact h.2.2.2⟩
      · exact Memory.wfFrom_cons.2 ⟨h.1, h.2.1, h.2.2.1, ih h.2.2.2 (by omega)⟩

theorem Memory.wfFrom_erase {lo : Nat} {m : Memory} (h : Memory.wfFrom lo m = true) (a : Nat) :
    Memory.wfFrom lo (Memory.erase m a) = true := by
  induction m generalizing lo with
  | nil => rfl
  | cons c m ih =>
    rw [Memory.wfFrom_cons] at h
    unfold Memory.erase
    split
    · exact Memory.wfFrom_mono h.2.2.2 (by omega)
    · exact Memory.wfFrom_cons.2 ⟨h.1, h.2.1, h.2.2.1, ih h.2.2.2⟩

/-- A write inside memory keeps the canonical form. -/
theorem Memory.wf_write {m : Memory} (h : m.wf = true) {a : Nat} (ha : a < memSize) (b : Byte) :
    (Memory.write m a b).wf = true := by
  unfold Memory.write
  split
  · exact Memory.wfFrom_erase h a
  · exact Memory.wfFrom_insert h (Nat.zero_le a) ha ‹_›

/-- Consecutive writes inside memory keep the canonical form. -/
theorem Memory.wf_writeList {m : Memory} (h : m.wf = true) {a : Nat} {bs : List Byte} (ha : a + bs.length ≤ memSize) :
    (Memory.writeList m a bs).wf = true := by
  induction bs generalizing m a with
  | nil => exact h
  | cons b bs ih =>
    rw [List.length_cons] at ha
    exact ih (Memory.wf_write h (by omega) b) (by omega)

/-- Consecutive writes: the bytes written stand at their addresses, every other address is left alone. -/
theorem Memory.read_writeList {m : Memory} (h : m.wf = true) {a : Nat} {bs : List Byte} (ha : a + bs.length ≤ memSize)
    (q : Nat) : Memory.read (Memory.writeList m a bs) q =
      if hq : a ≤ q ∧ q < a + bs.length then bs[q - a]'(by omega) else Memory.read m q := by
  induction bs generalizing m a with
  | nil => simp [Memory.writeList]
  | cons b bs ih =>
    rw [List.length_cons] at ha
    rw [Memory.writeList, ih (Memory.wf_write h (by omega) b) (by omega), Memory.read_write h]
    by_cases hq : q = a
    · subst hq
      simp
    · by_cases h1 : a + 1 ≤ q ∧ q < a + 1 + bs.length
      · rw [dif_pos h1, dif_pos (by simp only [List.length_cons]; omega)]
        have : q - a = (q - (a + 1)) + 1 := by omega
        simp only [this, List.getElem_cons_succ]
      · rw [dif_neg h1, if_neg hq, dif_neg (by simp only [List.length_cons]; omega)]

end Sys2Proof.Machine
end

