-- ==== Sys2Proof/Laws/Ops.lean ====
section
/-! SUPPORT. For each shared operation, what it can do: the stack, skips, keys, the register transfers of FX55 and FX65,
and the end of a step. -/

namespace Sys2Proof.Machine

/-! ### The call stack -/

/-- push either appends to a stack with room or has none (R26). -/
theorem State.push_of_lt {s : State} (h : s.stack.length < stackDepth) (a : Word) :
    s.push a = some { s with stack := s.stack ++ [a] } := if_pos h

theorem State.push_of_full {s : State} (h : stackDepth ≤ s.stack.length) (a : Word) : s.push a = none :=
  if_neg (by omega)

/-- pop takes the last entry (R26). -/
theorem State.pop_of_append {s : State} {st : List Word} {a : Word} (h : s.stack = st ++ [a]) :
    s.pop = some (a, { s with stack := st }) := by
  simp [State.pop, h]

theorem State.pop_of_nil {s : State} (h : s.stack = []) : s.pop = none := by
  simp [State.pop, h]

/-- What pop can answer. -/
theorem State.pop_cases (s : State) :
    (s.stack = [] ∧ s.pop = none) ∨
      ∃ st a, s.stack = st ++ [a] ∧ s.pop = some (a, { s with stack := st }) := by
  rcases List.eq_nil_or_concat s.stack with h | ⟨st, a, h⟩
  · exact .inl ⟨h, State.pop_of_nil h⟩
  · rw [List.concat_eq_append] at h
    exact .inr ⟨st, a, h, State.pop_of_append h⟩

/-! ### Skips and the advance of I -/

/-- A conditional skip changes pc only. -/
theorem State.skipIf_eq (s : State) (c : Bool) : s.skipIf c = { s with pc := if c then s.pc + 2 else s.pc } := by
  cases c <;> rfl

/-- The advance of I under quirk_index_increment changes I only (R107, R108). -/
theorem State.advanceI_eq (s : State) (x : Reg) : s.advanceI x =
    { s with i := if s.cfg.indexIncrement then s.i + BitVec.ofNat 16 (x.val + 1) else s.i } := by
  unfold State.advanceI
  split <;> rfl

/-! ### Keys -/

/-- V[x] names a key exactly when it is below 16 (R112). -/
theorem keyOperand_of_lt {s : State} {x : Reg} (h : (s.getV x).toNat < 16) :
    keyOperand s x = some ⟨(s.getV x).toNat, h⟩ := dif_pos h

theorem keyOperand_of_ge {s : State} {x : Reg} (h : 16 ≤ (s.getV x).toNat) : keyOperand s x = none :=
  dif_neg (by omega)

/-- No key is lowest exactly when none is pressed (R115). -/
theorem lowestPressed_eq_none {s : State} : lowestPressed s = none ↔ ∀ k : Key, s.key[k] = false := by
  simp [lowestPressed, List.find?_eq_none]

/-- The lowest pressed key is pressed and no lower one is (R115). -/
theorem lowestPressed_eq_some {s : State} {k : Key} :
    lowestPressed s = some k ↔ s.key[k] = true ∧ ∀ j : Key, j < k → s.key[j] = false := by
  rw [lowestPressed, List.find?_eq_some_iff_getElem]
  simp only [List.getElem_finRange, List.length_finRange, Fin.cast_mk, Bool.not_eq_eq_eq_not, Bool.not_true]
  constructor
  · rintro ⟨hk, n, hn, rfl, hlow⟩
    exact ⟨hk, fun j hj => hlow j.val hj⟩
  · rintro ⟨hk, hlow⟩
    exact ⟨hk, k.val, k.isLt, rfl, fun n hn => hlow ⟨n, by omega⟩ hn⟩

/-! ### V0 to VX (R18) -/

/-- The registers of FX55 and FX65 are V0 to VX in order. -/
theorem regsUpTo_eq_take (x : Reg) : regsUpTo x = (List.finRange 16).take (x.val + 1) := by
  revert x; decide

theorem length_regsUpTo (x : Reg) : (regsUpTo x).length = x.val + 1 := by
  revert x; decide

theorem mem_regsUpTo {x r : Reg} : r ∈ regsUpTo x ↔ r ≤ x := by
  simp [regsUpTo]

theorem getElem_regsUpTo {x : Reg} {k : Nat} (h : k < (regsUpTo x).length) :
    (regsUpTo x)[k] = ⟨k, by rw [length_regsUpTo] at h; omega⟩ := by
  simp only [regsUpTo_eq_take, List.getElem_take, List.getElem_finRange, Fin.cast_mk]

/-- Memory after FX55's stores: V[k] stands at a + k, every other address is left alone (R107). -/
theorem read_storeRegs {s : State} (h : s.mem.wf = true) {a : Nat} {x : Reg} (ha : a + (x.val + 1) ≤ memSize) (q : Nat) :
    (storeRegs s a x).read q =
      if hq : a ≤ q ∧ q ≤ a + x.val then s.getV ⟨q - a, by omega⟩ else s.mem.read q := by
  rw [storeRegs, Memory.read_writeList h (by rw [List.length_map, length_regsUpTo]; exact ha)]
  simp only [List.length_map, length_regsUpTo, List.getElem_map, getElem_regsUpTo]
  by_cases hq : a ≤ q ∧ q ≤ a + x.val
  · rw [dif_pos hq, dif_pos (by omega)]
  · rw [dif_neg hq, dif_neg (by omega)]

theorem wf_storeRegs {s : State} (h : s.mem.wf = true) {a : Nat} {x : Reg} (ha : a + (x.val + 1) ≤ memSize) :
    (storeRegs s a x).wf = true :=
  Memory.wf_writeList h (by rw [List.length_map, length_regsUpTo]; exact ha)

/-- A list of register writes changes registers only. -/
theorem foldl_setV_eq (l : List Reg) (g : Reg → Byte) (s : State) :
    l.foldl (fun t r => t.setV r (g r)) s = { s with v := (l.foldl (fun t r => t.setV r (g r)) s).v } := by
  induction l generalizing s with
  | nil => rfl
  | cons r l ih =>
    rw [List.foldl_cons, ih (s.setV r (g r))]
    rfl

/-- A list of register writes gives each register of the list its value. -/
theorem getV_foldl_setV (l : List Reg) (g : Reg → Byte) (s : State) (q : Reg) :
    (l.foldl (fun t r => t.setV r (g r)) s).getV q = if q ∈ l then g q else s.getV q := by
  induction l generalizing s with
  | nil => simp
  | cons r l ih =>
    rw [List.foldl_cons, ih, State.getV_setV]
    by_cases hl : q ∈ l
    · simp [hl]
    · by_cases hq : q = r
      · simp [hq]
      · simp [hl, hq]

/-- FX65's loads change registers only (R108). -/
theorem loadRegs_eq (s : State) (a : Nat) (x : Reg) : loadRegs s a x = { s with v := (loadRegs s a x).v } :=
  foldl_setV_eq _ _ s

/-- Registers after FX65's loads: V0 to VX come from memory, the registers above are left alone (R108). -/
theorem getV_loadRegs (s : State) (a : Nat) (x q : Reg) :
    (loadRegs s a x).getV q = if q ≤ x then s.mem.read (a + q.val) else s.getV q := by
  rw [loadRegs, getV_foldl_setV]
  simp only [mem_regsUpTo]

/-! ### The end of a step (R77) -/

/-- A step that raised no fault keeps the state it computed. -/
theorem State.commit_of_noFault {s t : State} (h : t.fault.code = .noFault) : s.commit t = t := if_pos h

/-- A step that raised a fault changes the fault record only. -/
theorem State.commit_of_fault {s t : State} (h : t.fault.code ≠ .noFault) : s.commit t = { s with fault := t.fault } :=
  if_neg h

end Sys2Proof.Machine
end

