-- ==== Sys2Proof/Laws/Step.lean ====
section
/-! SUPPORT. What a step can do, said once (40_cycle.md R80): every later proof about steps splits on these cases instead
of unfolding the step. -/

namespace Sys2Proof.Machine

/-- Every instruction answers a next state: the faults of R119 are next states too. -/
theorem exec_next (i : Instr) (s : State) : ∃ t, exec i s = .next t := by
  cases i <;>
    simp only [exec, execCls, execRet, execJp, execCall, execSeImm, execSneImm, execSeReg, execLdImm, execAddImm,
      execLdReg, execOrReg, execAndReg, execXorReg, execAddReg, execSub, execShr, execSubn, execShl, execSneReg, execLdI,
      execJpV0, execJpVx, execRnd, execDrw, execSkp, execSknp, execLdVxDt, execLdVxK, execLdDtVx, execLdStVx,
      execAddIVx, execLdFVx, execLdBVx, execLdMemVx, execLdVxMem] <;>
    first
    | exact ⟨_, rfl⟩
    | (split <;> exact ⟨_, rfl⟩)

/-- An unrecognized word answers a next state (R78). -/
theorem execUnrecognized_next (s : State) : ∃ t, execUnrecognized s = .next t := by
  unfold execUnrecognized
  split <;> exact ⟨_, rfl⟩

/-- Before a Load a step is not admitted (R73). -/
theorem step_of_not_loaded {s : State} (h : s.loaded = false) : step s = .fault .stepNotAdmitted := by
  simp [step, stepCycle, h]

/-- A halted core steps to itself (R121). -/
theorem step_of_halted {s : State} (hl : s.loaded = true) (hf : s.fault.code ≠ .noFault) : step s = .next s := by
  simp [step, stepCycle, hl, hf]

/-- A fetch outside memory faults (R49). -/
theorem step_of_fetch_fault {s : State} (hl : s.loaded = true) (hf : s.fault.code = .noFault) (hc : s.canFetch = false) :
    step s = .next s.raiseFetch := by
  simp [step, stepCycle, hl, hf, hc]

/-- A recognized word executes, and a fault it raises discards the step (R76, R77). -/
theorem step_of_decoded {s t : State} {i : Instr} (hl : s.loaded = true) (hf : s.fault.code = .noFault)
    (hc : s.canFetch = true) (hd : s.decoded = .ok i) (he : exec i (s.fetched (isDraw i)) = .next t) :
    step s = .next (s.commit t) := by
  simp [step, stepCycle, hl, hf, hc, execDecoded, hd, he, commitResult]

/-- An unrecognized word runs R78. -/
theorem step_of_unrecognized {s t : State} {e : DecodeReject} (hl : s.loaded = true) (hf : s.fault.code = .noFault)
    (hc : s.canFetch = true) (hd : s.decoded = .error e) (he : execUnrecognized (s.fetched false) = .next t) :
    step s = .next (s.commit t) := by
  simp [step, stepCycle, hl, hf, hc, execDecoded, hd, he, commitResult]

/-- Everything a step that answers a next state can have done. -/
theorem step_cases {s t : State} (h : step s = .next t) : s.loaded = true ∧
    ((s.fault.code ≠ .noFault ∧ t = s) ∨
      (s.fault.code = .noFault ∧ s.canFetch = false ∧ t = s.raiseFetch) ∨
      (s.fault.code = .noFault ∧ s.canFetch = true ∧
        ((∃ i u, s.decoded = .ok i ∧ exec i (s.fetched (isDraw i)) = .next u ∧ t = s.commit u) ∨
          (∃ e u, s.decoded = .error e ∧ execUnrecognized (s.fetched false) = .next u ∧ t = s.commit u)))) := by
  cases hl : s.loaded with
  | false => rw [step_of_not_loaded hl] at h; cases h
  | true =>
    refine ⟨rfl, ?_⟩
    by_cases hf : s.fault.code = .noFault
    · right
      cases hc : s.canFetch with
      | false =>
        rw [step_of_fetch_fault hl hf hc] at h
        cases h
        exact .inl ⟨hf, rfl, rfl⟩
      | true =>
        refine .inr ⟨hf, rfl, ?_⟩
        cases hd : s.decoded with
        | ok i =>
          obtain ⟨u, hu⟩ := exec_next i (s.fetched (isDraw i))
          rw [step_of_decoded hl hf hc hd hu] at h
          cases h
          exact .inl ⟨i, u, rfl, hu, rfl⟩
        | error e =>
          obtain ⟨u, hu⟩ := execUnrecognized_next (s.fetched false)
          rw [step_of_unrecognized hl hf hc hd hu] at h
          cases h
          exact .inr ⟨e, u, rfl, hu, rfl⟩
    · rw [step_of_halted hl hf] at h
      cases h
      exact .inl ⟨hf, rfl⟩

/-- A loaded core always steps. -/
theorem step_next {s : State} (hl : s.loaded = true) : ∃ t, step s = .next t := by
  by_cases hf : s.fault.code = .noFault
  · cases hc : s.canFetch with
    | false => exact ⟨_, step_of_fetch_fault hl hf hc⟩
    | true =>
      cases hd : s.decoded with
      | ok i =>
        obtain ⟨u, hu⟩ := exec_next i (s.fetched (isDraw i))
        exact ⟨_, step_of_decoded hl hf hc hd hu⟩
      | error e =>
        obtain ⟨u, hu⟩ := execUnrecognized_next (s.fetched false)
        exact ⟨_, step_of_unrecognized hl hf hc hd hu⟩
  · exact ⟨_, step_of_halted hl hf⟩

/-! ### The host's operations -/

/-- An operation leaves the core in the state its effect computed, whatever the host's record. -/
@[simp] theorem Session.after_core (r : Session) (op : Operation) (t : State) : (r.after op t).core = t := by
  cases op <;> rfl

/-- Only a Load changes whether a Load has been issued (R57). -/
theorem Session.after_loadIssued (r : Session) (op : Operation) (t : State) :
    (r.after op t).loadIssued = true ↔ r.loadIssued = true ∨ ∃ image, op = .load image := by
  cases op <;> simp [Session.after]

/-- A Step decides whether a Tick is due and a Tick meets it; nothing else changes that (R131). -/
theorem Session.after_tickOwed (r : Session) (op : Operation) (t : State) :
    (r.after op t).tickOwed = match op with
      | .step => t.cfg.drawPacing && t.drew
      | .tick => false
      | _ => r.tickOwed := by
  cases op <;> rfl

/-- A Load is admitted once, and before any Step (R57). -/
theorem Session.admits_load {r : Session} {image : Image} :
    r.admits (.load image) = true ↔ r.core.loaded = false ∧ r.loadIssued = false := by
  simp [Session.admits]

/-- A Step is admitted after a successful Load and while no Tick is due (R57, R133). -/
theorem Session.admits_step {r : Session} : r.admits .step = true ↔ r.core.loaded = true ∧ r.tickOwed = false := by
  simp [Session.admits]

/-- An admitted operation has its effect. -/
theorem perform_of_admits {op : Operation} {r : Session} {response : Response} {t : State} (h : r.admits op = true)
    (he : effect op r.core = some (response, t)) : perform op r = some (response, r.after op t) := by
  rw [perform, if_pos h, he]

/-- An operation that is not admitted has no transition (R127). -/
theorem perform_of_not_admits {op : Operation} {r : Session} (h : r.admits op = false) : perform op r = none :=
  if_neg (by rw [h]; decide)

/-- The effect of a Step is what `step` answers (R127). -/
theorem effect_step {s t : State} (h : step s = .next t) : effect .step s = some (.done, t) := by
  simp only [effect, h]

/-- What an operation that has a transition has done: it was admitted, and it had its effect on the core. -/
theorem perform_cases {op : Operation} {r q : Session} {response : Response} (h : perform op r = some (response, q)) :
    r.admits op = true ∧ ∃ t, effect op r.core = some (response, t) ∧ q = r.after op t := by
  unfold perform at h
  split at h
  · rename_i ha
    split at h
    · rename_i he
      cases h
      exact ⟨ha, _, he, rfl⟩
    · cases h
  · cases h

/-- Everything an operation of the host can do to the core (R127). -/
theorem effect_cases {op : Operation} {s t : State} {response : Response} (h : effect op s = some (response, t)) :
    (∃ image, op = .load image ∧ t = (s.load image).2) ∨
      (op = .step ∧ step s = .next t) ∨ (op = .tick ∧ t = s.tick) ∨ (∃ k, op = .keyDown k ∧ t = s.keyDown k) ∨
      (∃ k, op = .keyUp k ∧ t = s.keyUp k) ∨ (op = .clearDirty ∧ t = s.clearDirty) ∨
      ((op = .readFrame ∨ op = .toneActive ∨ op = .readStatus) ∧ t = s) := by
  cases op with
  | step =>
    simp only [effect] at h
    split at h
    · rename_i u hu
      cases h
      simp [hu]
    · cases h
    · cases h
  | _ =>
    simp only [effect, Option.some.injEq, Prod.mk.injEq] at h
    obtain ⟨-, rfl⟩ := h
    simp

/-- What every operation of a list keeps, their sequence keeps. -/
theorem performAll_keeps {P : Session → Prop} {ops : List Operation} {r q : Session}
    (step : ∀ op ∈ ops, ∀ u response v, P u → perform op u = some (response, v) → P v) (hr : P r)
    (h : performAll ops r = some q) : P q := by
  induction ops generalizing r with
  | nil => cases h; exact hr
  | cons op ops ih =>
    simp only [performAll] at h
    split at h
    · rename_i response v hv
      exact ih (fun o ho => step o (List.mem_cons_of_mem op ho)) (step op List.mem_cons_self r response v hr hv) h
    · cases h

/-- What Load can do (R56): nothing, or the bytes of an image that fits and `loaded`. -/
theorem load_cases (s : State) (image : Image) :
    s.load image = (false, s) ∨ ∃ bs, image = .bytes bs ∧ bs.length ≤ maxRom ∧
      s.load image = (true, { s with mem := s.mem.writeList loadBase bs, loaded := true }) := by
  cases image with
  | unreadable => exact .inl rfl
  | bytes bs =>
    by_cases hl : bs.length > maxRom
    · exact .inl (if_pos hl)
    · exact .inr ⟨bs, rfl, by omega, if_neg hl⟩

end Sys2Proof.Machine
end

