-- ==== Sys2Proof/Laws/Exec.lean ====
section
/-! SUPPORT. The meanings that branch, one lemma per branch with its condition as a fact about numbers, so that later proofs
do not unfold them; and the step of an instruction that raises a fault. -/

namespace Sys2Proof.Machine

/-! ### The address check (R42) and zero extension (R61) -/

theorem inMemory_of_le {a n : Nat} (h : a + n ≤ 4096) : inMemory a n = true := decide_eq_true h

theorem inMemory_of_gt {a n : Nat} (h : a + n > 4096) : inMemory a n = false := decide_eq_false (by
  show ¬ a + n ≤ 4096
  omega)

/-- Both bytes of the word at pc are inside memory (R49). -/
theorem canFetch_iff {s : State} : s.canFetch = true ↔ s.pc.toNat + 1 ≤ 0x0FFF := by
  simp only [State.canFetch, inMemory, memSize, decide_eq_true_eq]
  omega

theorem toNat_zextAddr (nnn : Addr12) : (zextAddr nnn).toNat = nnn.toNat := by
  have := nnn.isLt
  simp only [zextAddr, BitVec.toNat_setWidth]
  omega

theorem toNat_zextByte (b : Byte) : (zextByte b).toNat = b.toNat := by
  have := b.isLt
  simp only [zextByte, BitVec.toNat_setWidth]
  omega

/-- The target of a jump with offset needs no reduction (R23, R88, R89). -/
theorem toNat_offsetTarget (s : State) (nnn : Addr12) (r : Reg) :
    (offsetTarget s nnn r).toNat = nnn.toNat + (s.getV r).toNat := by
  have := nnn.isLt
  have := (s.getV r).isLt
  rw [offsetTarget, BitVec.toNat_add, toNat_zextAddr, toNat_zextByte]
  omega

/-! ### The meanings that branch -/

variable (s : State) (x y : Reg) (nnn : Addr12) (n : Nibble)

theorem exec_ret_of_append {st : List Word} {a : Word} (h : s.stack = st ++ [a]) :
    exec .ret s = .next { s with stack := st, pc := a } := by
  simp only [exec, execRet, State.pop_of_append h, State.setPc]

theorem exec_ret_of_nil (h : s.stack = []) : exec .ret s = .next (s.raise .stackUnderflow none) := by
  simp only [exec, execRet, State.pop_of_nil h]

theorem exec_call_of_lt (h : s.stack.length < 16) :
    exec (.call nnn) s = .next { s with stack := s.stack ++ [s.pc], pc := zextAddr nnn } := by
  simp only [exec, execCall, State.push_of_lt h, State.setPc]

theorem exec_call_of_ge (h : 16 ≤ s.stack.length) : exec (.call nnn) s = .next (s.raise .stackOverflow none) := by
  simp only [exec, execCall, State.push_of_full h]

theorem exec_addIVx_of_gt (h : (s.i + zextByte (s.getV x)).toNat > 0x0FFF) :
    exec (.addIVx x) s = .next ((s.setI ((s.i + zextByte (s.getV x)) &&& 0x0FFF)).setV VF 1) :=
  if_pos (decide_eq_true h)

theorem exec_addIVx_of_le (h : (s.i + zextByte (s.getV x)).toNat ≤ 0x0FFF) :
    exec (.addIVx x) s = .next (s.setI (s.i + zextByte (s.getV x))) :=
  if_neg (by simp only [indexOverflow, decide_eq_true_eq]; omega)

theorem exec_ldBVx_of_le (h : s.i.toNat + 2 ≤ 0x0FFF) :
    exec (.ldBVx x) s = .next { s with mem := s.mem.writeList s.i.toNat (bcdDigits (s.getV x)) } :=
  if_pos (inMemory_of_le (by simp only [indexAddr]; omega))

theorem exec_ldBVx_of_gt (h : s.i.toNat + 2 > 0x0FFF) :
    exec (.ldBVx x) s = .next (s.raise .dataOutOfRange (some (max s.i.toNat 0x1000))) :=
  if_neg (by rw [inMemory_of_gt (by simp only [indexAddr]; omega)]; decide)

theorem exec_ldMemVx_of_le (h : s.i.toNat + x.val ≤ 0x0FFF) :
    exec (.ldMemVx x) s = .next (State.advanceI { s with mem := storeRegs s s.i.toNat x } x) :=
  if_pos (inMemory_of_le (by simp only [indexAddr]; omega))

theorem exec_ldMemVx_of_gt (h : s.i.toNat + x.val > 0x0FFF) :
    exec (.ldMemVx x) s = .next (s.raise .dataOutOfRange (some (max s.i.toNat 0x1000))) :=
  if_neg (by rw [inMemory_of_gt (by simp only [indexAddr]; omega)]; decide)

theorem exec_ldVxMem_of_le (h : s.i.toNat + x.val ≤ 0x0FFF) :
    exec (.ldVxMem x) s = .next ((loadRegs s s.i.toNat x).advanceI x) :=
  if_pos (inMemory_of_le (by simp only [indexAddr]; omega))

theorem exec_ldVxMem_of_gt (h : s.i.toNat + x.val > 0x0FFF) :
    exec (.ldVxMem x) s = .next (s.raise .dataOutOfRange (some (max s.i.toNat 0x1000))) :=
  if_neg (by rw [inMemory_of_gt (by simp only [indexAddr]; omega)]; decide)

theorem exec_drw_of_le (h : n = 0 ∨ s.i.toNat + n.toNat - 1 ≤ 0x0FFF) :
    exec (.drw x y n) s = .next (State.setV { s with fb := (drawCanvas s x y n).1, dirty := true } VF
      (flagByte (drawCanvas s x y n).2)) := by
  refine if_pos ?_
  rcases h with rfl | h
  · rfl
  · by_cases hn : n = 0
    · subst hn; rfl
    · have : 0 < n.toNat := Nat.pos_of_ne_zero fun h0 => hn (BitVec.eq_of_toNat_eq h0)
      rw [spriteInMemory, inMemory_of_le (by simp only [indexAddr]; omega), Bool.or_true]

theorem exec_drw_of_gt (hn : n ≠ 0) (h : s.i.toNat + n.toNat - 1 > 0x0FFF) :
    exec (.drw x y n) s = .next (s.raise .dataOutOfRange (some (max s.i.toNat 0x1000))) :=
  if_neg (by
    rw [spriteInMemory, inMemory_of_gt (by simp only [indexAddr]; omega), Bool.or_false, beq_iff_eq]
    exact hn)

theorem exec_skp_of_key {k : Key} (h : (s.getV x).toNat = k.val) : exec (.skp x) s = .next (s.skipIf s.key[k]) := by
  have hk : keyOperand s x = some k := by
    rw [keyOperand_of_lt (by omega)]
    exact congrArg some (Fin.ext h)
  simp only [exec, execSkp, hk]

theorem exec_skp_of_ge (h : 16 ≤ (s.getV x).toNat) :
    exec (.skp x) s = .next (s.raise .keyOutOfRange (some (s.getV x).toNat)) := by
  simp only [exec, execSkp, keyOperand_of_ge h]

theorem exec_sknp_of_key {k : Key} (h : (s.getV x).toNat = k.val) : exec (.sknp x) s = .next (s.skipIf (!s.key[k])) := by
  have hk : keyOperand s x = some k := by
    rw [keyOperand_of_lt (by omega)]
    exact congrArg some (Fin.ext h)
  simp only [exec, execSknp, hk]

theorem exec_sknp_of_ge (h : 16 ≤ (s.getV x).toNat) :
    exec (.sknp x) s = .next (s.raise .keyOutOfRange (some (s.getV x).toNat)) := by
  simp only [exec, execSknp, keyOperand_of_ge h]

theorem exec_ldVxK_of_pressed {k : Key} (hk : s.key[k] = true) (hl : ∀ j : Key, j < k → s.key[j] = false) :
    exec (.ldVxK x) s = .next (s.setV x (BitVec.ofNat 8 k.val)) := by
  simp only [exec, execLdVxK, lowestPressed_eq_some.2 ⟨hk, hl⟩]

theorem exec_ldVxK_of_none (h : ∀ k : Key, s.key[k] = false) : exec (.ldVxK x) s = .next (s.setPc (s.pc - 2)) := by
  simp only [exec, execLdVxK, lowestPressed_eq_none.2 h]

/-- Either some key is the lowest pressed one, or none is pressed. -/
theorem pressed_cases : (∃ k : Key, s.key[k] = true ∧ ∀ j : Key, j < k → s.key[j] = false) ∨ ∀ k : Key, s.key[k] = false := by
  cases h : lowestPressed s with
  | none => exact .inr (lowestPressed_eq_none.1 h)
  | some k => exact .inl ⟨k, lowestPressed_eq_some.1 h⟩

/-! ### What the execute phase can do, said once -/

/-- The state an instruction that raises no fault leaves, with the condition under which it raises none. -/
def Completed (i : Instr) (s t : State) : Prop :=
  match i with
  | .cls => t = { s with fb := Frame.clear, dirty := true }
  | .ret => ∃ st a, s.stack = st ++ [a] ∧ t = { s with stack := st, pc := a }
  | .jp nnn => t = s.setPc (zextAddr nnn)
  | .call nnn => s.stack.length < 16 ∧ t = { s with stack := s.stack ++ [s.pc], pc := zextAddr nnn }
  | .seImm x nn => t = s.skipIf (s.getV x == nn)
  | .sneImm x nn => t = s.skipIf (s.getV x != nn)
  | .seReg x y => t = s.skipIf (s.getV x == s.getV y)
  | .sneReg x y => t = s.skipIf (s.getV x != s.getV y)
  | .jpV0 nnn => t = s.setPc (offsetTarget s nnn 0)
  | .jpVx x nnn => t = s.setPc (offsetTarget s nnn x)
  | .ldImm x nn => t = s.setV x nn
  | .addImm x nn => t = s.setV x (s.getV x + nn)
  | .ldReg x y => t = s.setV x (s.getV y)
  | .orReg x y => t = s.setV x (s.getV x ||| s.getV y)
  | .andReg x y => t = s.setV x (s.getV x &&& s.getV y)
  | .xorReg x y => t = s.setV x (s.getV x ^^^ s.getV y)
  | .addReg x y => t = s.writeWithFlag x (s.getV x + s.getV y) (carryOut (s.getV x) (s.getV y))
  | .sub x y => t = s.writeWithFlag x (s.getV x - s.getV y) (notBorrow (s.getV x) (s.getV y))
  | .shr x y => t = s.writeWithFlag x (shiftOperand s x y >>> 1) (lowBit (shiftOperand s x y))
  | .subn x y => t = s.writeWithFlag x (s.getV y - s.getV x) (notBorrow (s.getV y) (s.getV x))
  | .shl x y => t = s.writeWithFlag x (shiftOperand s x y <<< 1) (highBit (shiftOperand s x y))
  | .rnd x nn => t = { s.setV x (Config.draw s.draws &&& nn) with draws := s.draws + 1 }
  | .ldI nnn => t = s.setI (zextAddr nnn)
  | .addIVx x =>
    ((s.i + zextByte (s.getV x)).toNat > 0x0FFF ∧ t = (s.setI ((s.i + zextByte (s.getV x)) &&& 0x0FFF)).setV VF 1) ∨
      ((s.i + zextByte (s.getV x)).toNat ≤ 0x0FFF ∧ t = s.setI (s.i + zextByte (s.getV x)))
  | .ldFVx x => t = s.setI (BitVec.ofNat 16 (fontBase + (s.getV x).toNat * 5))
  | .ldBVx x => s.i.toNat + 2 ≤ 0x0FFF ∧ t = { s with mem := s.mem.writeList s.i.toNat (bcdDigits (s.getV x)) }
  | .ldMemVx x =>
    s.i.toNat + x.val ≤ 0x0FFF ∧ t = State.advanceI { s with mem := storeRegs s s.i.toNat x } x
  | .ldVxMem x => s.i.toNat + x.val ≤ 0x0FFF ∧ t = (loadRegs s s.i.toNat x).advanceI x
  | .drw x y n => (n = 0 ∨ s.i.toNat + n.toNat - 1 ≤ 0x0FFF) ∧
      t = State.setV { s with fb := (drawCanvas s x y n).1, dirty := true } VF (flagByte (drawCanvas s x y n).2)
  | .skp x => ∃ k : Key, (s.getV x).toNat = k.val ∧ t = s.skipIf s.key[k]
  | .sknp x => ∃ k : Key, (s.getV x).toNat = k.val ∧ t = s.skipIf (!s.key[k])
  | .ldVxDt x => t = s.setV x s.dt
  | .ldVxK x =>
    (∃ k : Key, s.key[k] = true ∧ (∀ j : Key, j < k → s.key[j] = false) ∧ t = s.setV x (BitVec.ofNat 8 k.val)) ∨
      ((∀ k : Key, s.key[k] = false) ∧ t = s.setPc (s.pc - 2))
  | .ldDtVx x => t = { s with dt := s.getV x }
  | .ldStVx x => t = { s with st := s.getV x }

/-- The fault an instruction raises, with its condition and what it records (R119). -/
def Raises (i : Instr) (s : State) (code : FaultCode) (info : Option Nat) : Prop :=
  match i with
  | .ret => s.stack = [] ∧ code = .stackUnderflow ∧ info = none
  | .call _ => 16 ≤ s.stack.length ∧ code = .stackOverflow ∧ info = none
  | .drw _ _ n => n ≠ 0 ∧ s.i.toNat + n.toNat - 1 > 0x0FFF ∧ code = .dataOutOfRange ∧ info = some (max s.i.toNat 0x1000)
  | .ldBVx _ => s.i.toNat + 2 > 0x0FFF ∧ code = .dataOutOfRange ∧ info = some (max s.i.toNat 0x1000)
  | .ldMemVx x => s.i.toNat + x.val > 0x0FFF ∧ code = .dataOutOfRange ∧ info = some (max s.i.toNat 0x1000)
  | .ldVxMem x => s.i.toNat + x.val > 0x0FFF ∧ code = .dataOutOfRange ∧ info = some (max s.i.toNat 0x1000)
  | .skp x => 16 ≤ (s.getV x).toNat ∧ code = .keyOutOfRange ∧ info = some (s.getV x).toNat
  | .sknp x => 16 ≤ (s.getV x).toNat ∧ code = .keyOutOfRange ∧ info = some (s.getV x).toNat
  | _ => False

/-- A fault raised is one of R119's, not NONE. -/
theorem Raises.ne_noFault {i : Instr} {s : State} {c : FaultCode} {info : Option Nat} (h : Raises i s c info) :
    c ≠ .noFault := by
  cases i <;> simp only [Raises] at h <;> (first | exact h.elim | (simp only [h, ne_eq, reduceCtorEq, not_false_eq_true]))

/-- Every instruction completes or raises the fault its condition names. -/
theorem exec_cases {i : Instr} {s t : State} (h : exec i s = .next t) :
    Completed i s t ∨ ∃ c info, Raises i s c info ∧ t = s.raise c info := by
  cases i with
  | ret =>
    rcases s.pop_cases with ⟨hs, -⟩ | ⟨st, a, hs, -⟩
    · rw [exec_ret_of_nil s hs] at h; cases h
      exact .inr ⟨_, _, ⟨hs, rfl, rfl⟩, rfl⟩
    · rw [exec_ret_of_append s hs] at h; cases h
      exact .inl ⟨st, a, hs, rfl⟩
  | call nnn =>
    rcases Nat.lt_or_ge s.stack.length 16 with hs | hs
    · rw [exec_call_of_lt s nnn hs] at h; cases h
      exact .inl ⟨hs, rfl⟩
    · rw [exec_call_of_ge s nnn hs] at h; cases h
      exact .inr ⟨_, _, ⟨hs, rfl, rfl⟩, rfl⟩
  | addIVx x =>
    rcases Nat.lt_or_ge 0x0FFF (s.i + zextByte (s.getV x)).toNat with hs | hs
    · rw [exec_addIVx_of_gt s x hs] at h; cases h
      exact .inl (.inl ⟨hs, rfl⟩)
    · rw [exec_addIVx_of_le s x hs] at h; cases h
      exact .inl (.inr ⟨hs, rfl⟩)
  | ldBVx x =>
    rcases Nat.lt_or_ge 0x0FFF (s.i.toNat + 2) with hs | hs
    · rw [exec_ldBVx_of_gt s x hs] at h; cases h
      exact .inr ⟨_, _, ⟨hs, rfl, rfl⟩, rfl⟩
    · rw [exec_ldBVx_of_le s x hs] at h; cases h
      exact .inl ⟨hs, rfl⟩
  | ldMemVx x =>
    rcases Nat.lt_or_ge 0x0FFF (s.i.toNat + x.val) with hs | hs
    · rw [exec_ldMemVx_of_gt s x hs] at h; cases h
      exact .inr ⟨_, _, ⟨hs, rfl, rfl⟩, rfl⟩
    · rw [exec_ldMemVx_of_le s x hs] at h; cases h
      exact .inl ⟨hs, rfl⟩
  | ldVxMem x =>
    rcases Nat.lt_or_ge 0x0FFF (s.i.toNat + x.val) with hs | hs
    · rw [exec_ldVxMem_of_gt s x hs] at h; cases h
      exact .inr ⟨_, _, ⟨hs, rfl, rfl⟩, rfl⟩
    · rw [exec_ldVxMem_of_le s x hs] at h; cases h
      exact .inl ⟨hs, rfl⟩
  | drw x y n =>
    by_cases hs : n = 0 ∨ s.i.toNat + n.toNat - 1 ≤ 0x0FFF
    · rw [exec_drw_of_le s x y n hs] at h; cases h
      exact .inl ⟨hs, rfl⟩
    · obtain ⟨hn, hs⟩ := not_or.1 hs
      rw [exec_drw_of_gt s x y n hn (Nat.lt_of_not_le hs)] at h; cases h
      exact .inr ⟨_, _, ⟨hn, Nat.lt_of_not_le hs, rfl, rfl⟩, rfl⟩
  | skp x =>
    rcases Nat.lt_or_ge (s.getV x).toNat 16 with hs | hs
    · rw [exec_skp_of_key s x (k := ⟨_, hs⟩) rfl] at h; cases h
      exact .inl ⟨⟨_, hs⟩, rfl, rfl⟩
    · rw [exec_skp_of_ge s x hs] at h; cases h
      exact .inr ⟨_, _, ⟨hs, rfl, rfl⟩, rfl⟩
  | sknp x =>
    rcases Nat.lt_or_ge (s.getV x).toNat 16 with hs | hs
    · rw [exec_sknp_of_key s x (k := ⟨_, hs⟩) rfl] at h; cases h
      exact .inl ⟨⟨_, hs⟩, rfl, rfl⟩
    · rw [exec_sknp_of_ge s x hs] at h; cases h
      exact .inr ⟨_, _, ⟨hs, rfl, rfl⟩, rfl⟩
  | ldVxK x =>
    rcases pressed_cases s with ⟨k, hk, hl⟩ | hs
    · rw [exec_ldVxK_of_pressed s x hk hl] at h; cases h
      exact .inl (.inl ⟨k, hk, hl, rfl⟩)
    · rw [exec_ldVxK_of_none s x hs] at h; cases h
      exact .inl (.inr ⟨hs, rfl⟩)
  | _ => cases h; exact .inl rfl

/-! ### The step of one instruction -/

variable {s} {i : Instr}

/-- A step whose instruction raises a fault leaves the state before it with the record (R77). -/
theorem step_of_raise {c : FaultCode} {info : Option Nat} (h : Safety.Runs s i) (hc : c ≠ .noFault)
    (he : exec i (s.fetched (isDraw i)) = .next ((s.fetched (isDraw i)).raise c info)) :
    step s = .next (Safety.faulted s c info) := by
  rw [step_of_decoded h.1 h.2.1 h.2.2.1 h.2.2.2 he, State.commit_of_fault hc]
  simp only [State.raise_fault, State.fetched_pc, State.fetched_opcode, BitVec.add_sub_cancel, Safety.faulted]

/-- A step whose instruction raises none leaves the state it computed. -/
theorem step_of_exec {t : State} (h : Safety.Runs s i) (he : exec i (s.fetched (isDraw i)) = .next t)
    (hf : t.fault = s.fault) : step s = .next t := by
  rw [step_of_decoded h.1 h.2.1 h.2.2.1 h.2.2.2 he, State.commit_of_noFault (by rw [hf]; exact h.2.1)]

/-- An instruction that completes leaves the fault record alone. -/
theorem Completed.fault_eq {i : Instr} {s t : State} (h : Completed i s t) : t.fault = s.fault := by
  cases i with
  | ret => obtain ⟨st, a, -, rfl⟩ := h; rfl
  | call nnn => obtain ⟨-, rfl⟩ := h; rfl
  | seImm x nn => cases h; rw [State.skipIf_eq]
  | sneImm x nn => cases h; rw [State.skipIf_eq]
  | seReg x y => cases h; rw [State.skipIf_eq]
  | sneReg x y => cases h; rw [State.skipIf_eq]
  | addIVx x => rcases h with ⟨-, rfl⟩ | ⟨-, rfl⟩ <;> rfl
  | ldBVx x => obtain ⟨-, rfl⟩ := h; rfl
  | ldMemVx x => obtain ⟨-, rfl⟩ := h; rw [State.advanceI_eq]
  | ldVxMem x => obtain ⟨-, rfl⟩ := h; rw [State.advanceI_eq, loadRegs_eq]
  | drw x y n => obtain ⟨-, rfl⟩ := h; rfl
  | skp x => obtain ⟨k, -, rfl⟩ := h; rw [State.skipIf_eq]
  | sknp x => obtain ⟨k, -, rfl⟩ := h; rw [State.skipIf_eq]
  | ldVxK x => rcases h with ⟨k, -, -, rfl⟩ | ⟨-, rfl⟩ <;> rfl
  | _ => cases h; rfl

/-- The state after an unrecognized word under UNKNOWN_OP = nop (R78). -/
def skippedUnknown (s : State) : State :=
  { s.fetched false with unkSeen := true, unkLast := s.fetchWord }

/-- Everything a step that answers a next state can have done, down to the instruction: nothing while halted; a fetch
fault; an instruction that completes; an instruction that raises a fault; an unrecognized word, skipped or faulting. -/
theorem step_effect {t : State} (h : step s = .next t) : s.loaded = true ∧
    ((s.fault.code ≠ .noFault ∧ t = s) ∨
      (s.fault.code = .noFault ∧ s.canFetch = false ∧ t = s.raiseFetch) ∨
      (∃ i, Safety.Runs s i ∧ Completed i (s.fetched (isDraw i)) t ∧ t.fault = s.fault) ∨
      (∃ i c info, Safety.Runs s i ∧ Raises i (s.fetched (isDraw i)) c info ∧ c ≠ .noFault ∧
        t = Safety.faulted s c info) ∨
      (s.fault.code = .noFault ∧ s.canFetch = true ∧ (∃ e, s.decoded = .error e) ∧ s.cfg.unknownOp = .nop ∧
        t = skippedUnknown s) ∨
      (s.fault.code = .noFault ∧ s.canFetch = true ∧ (∃ e, s.decoded = .error e) ∧ s.cfg.unknownOp = .fault ∧
        t = Safety.faulted s .unknownOpcode none)) := by
  obtain ⟨hl, hc⟩ := step_cases h
  refine ⟨hl, ?_⟩
  rcases hc with hc | hc | ⟨hf, hc, ⟨i, u, hd, hu, rfl⟩ | ⟨e, u, hd, hu, rfl⟩⟩
  · exact .inl hc
  · exact .inr (.inl hc)
  · have hr : Safety.Runs s i := ⟨hl, hf, hc, hd⟩
    rcases exec_cases hu with hk | ⟨c, info, hk, rfl⟩
    · have hfu : u.fault = s.fault := hk.fault_eq
      rw [State.commit_of_noFault (by rw [hfu]; exact hf)]
      exact .inr (.inr (.inl ⟨i, hr, hk, hfu⟩))
    · rw [State.commit_of_fault hk.ne_noFault]
      refine .inr (.inr (.inr (.inl ⟨i, c, info, hr, hk, hk.ne_noFault, ?_⟩)))
      simp only [State.raise_fault, State.fetched_pc, State.fetched_opcode, BitVec.add_sub_cancel, Safety.faulted]
  · cases hn : s.cfg.unknownOp with
    | nop =>
      simp only [execUnrecognized, State.fetched_cfg, hn] at hu
      cases hu
      rw [State.commit_of_noFault (by exact hf)]
      exact .inr (.inr (.inr (.inr (.inl ⟨hf, hc, ⟨e, hd⟩, rfl, rfl⟩))))
    | fault =>
      simp only [execUnrecognized, State.fetched_cfg, hn] at hu
      cases hu
      rw [State.commit_of_fault (by simp only [State.raise_fault, ne_eq, reduceCtorEq, not_false_eq_true])]
      refine .inr (.inr (.inr (.inr (.inr ⟨hf, hc, ⟨e, hd⟩, rfl, ?_⟩))))
      simp only [State.raise_fault, State.fetched_pc, State.fetched_opcode, BitVec.add_sub_cancel, Safety.faulted]

end Sys2Proof.Machine
end

