-- ==== Sys2Proof/Laws/PerInstr.lean ====
section
/-! SUPPORT. Statements made per instruction. Encoding: the word of an instruction fits the mask and match of its row of
spec/opcode_table.json in both decode modes (30_encoding.md R63, R64). -/

/-- The word of `i` is one that the row of `i` matches. -/
def Sys2Proof.Laws.Encoding.Statement (i : Sys2Proof.Instr) : Prop :=
  ∀ mode : Sys2Proof.DecodeMode, Sys2Proof.encode i &&& i.mask mode = i.pattern mode

namespace Sys2Proof.Laws.Encoding

open Sys2Proof

theorem cls : Statement .cls := by
  intro mode
  cases mode <;> rfl

theorem ret : Statement .ret := by
  intro mode
  cases mode <;> rfl

theorem jp (nnn : Addr12) : Statement (.jp nnn) := fun _ => wordNNN_and_F000 _ _

theorem call (nnn : Addr12) : Statement (.call nnn) := fun _ => wordNNN_and_F000 _ _

theorem seImm (x : Reg) (nn : Byte) : Statement (.seImm x nn) := fun _ => wordXNN_and_F000 _ _ _

theorem sneImm (x : Reg) (nn : Byte) : Statement (.sneImm x nn) := fun _ => wordXNN_and_F000 _ _ _

theorem seReg (x : Reg) (y : Reg) : Statement (.seReg x y) := by
  intro mode
  cases mode
  · exact wordXYN_and_F000 _ _ _ _
  · exact wordXYN_and_F00F _ _ _ _

theorem ldImm (x : Reg) (nn : Byte) : Statement (.ldImm x nn) := fun _ => wordXNN_and_F000 _ _ _

theorem addImm (x : Reg) (nn : Byte) : Statement (.addImm x nn) := fun _ => wordXNN_and_F000 _ _ _

theorem ldReg (x : Reg) (y : Reg) : Statement (.ldReg x y) := fun _ => wordXYN_and_F00F _ _ _ _

theorem orReg (x : Reg) (y : Reg) : Statement (.orReg x y) := fun _ => wordXYN_and_F00F _ _ _ _

theorem andReg (x : Reg) (y : Reg) : Statement (.andReg x y) := fun _ => wordXYN_and_F00F _ _ _ _

theorem xorReg (x : Reg) (y : Reg) : Statement (.xorReg x y) := fun _ => wordXYN_and_F00F _ _ _ _

theorem addReg (x : Reg) (y : Reg) : Statement (.addReg x y) := fun _ => wordXYN_and_F00F _ _ _ _

theorem sub (x : Reg) (y : Reg) : Statement (.sub x y) := fun _ => wordXYN_and_F00F _ _ _ _

theorem shr (x : Reg) (y : Reg) : Statement (.shr x y) := fun _ => wordXYN_and_F00F _ _ _ _

theorem subn (x : Reg) (y : Reg) : Statement (.subn x y) := fun _ => wordXYN_and_F00F _ _ _ _

theorem shl (x : Reg) (y : Reg) : Statement (.shl x y) := fun _ => wordXYN_and_F00F _ _ _ _

theorem sneReg (x : Reg) (y : Reg) : Statement (.sneReg x y) := by
  intro mode
  cases mode
  · exact wordXYN_and_F000 _ _ _ _
  · exact wordXYN_and_F00F _ _ _ _

theorem ldI (nnn : Addr12) : Statement (.ldI nnn) := fun _ => wordNNN_and_F000 _ _

theorem jpV0 (nnn : Addr12) : Statement (.jpV0 nnn) := fun _ => wordNNN_and_F000 _ _

theorem jpVx (x : Reg) (nnn : Addr12) : Statement (.jpVx x nnn) := fun _ => wordNNN_and_F000 _ _

theorem rnd (x : Reg) (nn : Byte) : Statement (.rnd x nn) := fun _ => wordXNN_and_F000 _ _ _

theorem drw (x : Reg) (y : Reg) (n : Nibble) : Statement (.drw x y n) := fun _ => wordXYN_and_F000 _ _ _ _

theorem skp (x : Reg) : Statement (.skp x) := fun _ => wordXNN_and_F0FF _ _ _

theorem sknp (x : Reg) : Statement (.sknp x) := fun _ => wordXNN_and_F0FF _ _ _

theorem ldVxDt (x : Reg) : Statement (.ldVxDt x) := fun _ => wordXNN_and_F0FF _ _ _

theorem ldVxK (x : Reg) : Statement (.ldVxK x) := fun _ => wordXNN_and_F0FF _ _ _

theorem ldDtVx (x : Reg) : Statement (.ldDtVx x) := fun _ => wordXNN_and_F0FF _ _ _

theorem ldStVx (x : Reg) : Statement (.ldStVx x) := fun _ => wordXNN_and_F0FF _ _ _

theorem addIVx (x : Reg) : Statement (.addIVx x) := fun _ => wordXNN_and_F0FF _ _ _

theorem ldFVx (x : Reg) : Statement (.ldFVx x) := fun _ => wordXNN_and_F0FF _ _ _

theorem ldBVx (x : Reg) : Statement (.ldBVx x) := fun _ => wordXNN_and_F0FF _ _ _

theorem ldMemVx (x : Reg) : Statement (.ldMemVx x) := fun _ => wordXNN_and_F0FF _ _ _

theorem ldVxMem (x : Reg) : Statement (.ldVxMem x) := fun _ => wordXNN_and_F0FF _ _ _

end Sys2Proof.Laws.Encoding
end

