-- ==== Sys2Proof/Tests/Slice0.lean ====
section
/-! SUPPORT. Our own tests. Expected results come from the examples of the rules and from 95_test_vectors.md (the vector's
id stands beside each); words are written out from the patterns of 30_encoding.md R64. The last part shows, for every
statement with hypotheses, states and operands that meet them. -/

namespace Sys2Proof.Tests

open Sys2Proof.Machine Sys2Proof.Safety

/-! ### Well-formedness -/

/-- R71: JP Vx with X other than the top nibble of NNN is no instruction, and every other term is one. -/
theorem test_wellFormed_refuses : (Instr.jpVx 3 0x412).wellFormed = false := by decide

theorem test_wellFormed_accepts :
    (Instr.jpVx 4 0x412).wellFormed = true ∧ (Instr.jpVx 0xF 0xFFF).wellFormed = true ∧ (Instr.jpVx 0 0xFFF).wellFormed = false ∧
      (Instr.drw 0xF 0xF 0xF).wellFormed = true := by decide

/-! ### Decoding: one word per constructor, from its pattern in R64 -/

theorem test_decode_cls : decodeWord .loose false 0x00E0 = .ok .cls := by decide
theorem test_decode_ret : decodeWord .loose false 0x00EE = .ok .ret := by decide
theorem test_decode_jp : decodeWord .loose false 0x1ABC = .ok (.jp 0xABC) := by decide
theorem test_decode_call : decodeWord .loose false 0x2400 = .ok (.call 0x400) := by decide
theorem test_decode_seImm : decodeWord .loose false 0x3A12 = .ok (.seImm 0xA 0x12) := by decide
theorem test_decode_sneImm : decodeWord .loose false 0x4A12 = .ok (.sneImm 0xA 0x12) := by decide
theorem test_decode_seReg : decodeWord .loose false 0x5AB0 = .ok (.seReg 0xA 0xB) := by decide
theorem test_decode_ldImm : decodeWord .loose false 0x6A2B = .ok (.ldImm 0xA 0x2B) := by decide
theorem test_decode_addImm : decodeWord .loose false 0x7320 = .ok (.addImm 3 0x20) := by decide
theorem test_decode_ldReg : decodeWord .loose false 0x8120 = .ok (.ldReg 1 2) := by decide
theorem test_decode_orReg : decodeWord .loose false 0x8121 = .ok (.orReg 1 2) := by decide
theorem test_decode_andReg : decodeWord .loose false 0x8122 = .ok (.andReg 1 2) := by decide
theorem test_decode_xorReg : decodeWord .loose false 0x8123 = .ok (.xorReg 1 2) := by decide
theorem test_decode_addReg : decodeWord .loose false 0x8124 = .ok (.addReg 1 2) := by decide
theorem test_decode_sub : decodeWord .loose false 0x8125 = .ok (.sub 1 2) := by decide
theorem test_decode_shr : decodeWord .loose false 0x8126 = .ok (.shr 1 2) := by decide
theorem test_decode_subn : decodeWord .loose false 0x8127 = .ok (.subn 1 2) := by decide
theorem test_decode_shl : decodeWord .loose false 0x812E = .ok (.shl 1 2) := by decide
theorem test_decode_sneReg : decodeWord .loose false 0x9AB0 = .ok (.sneReg 0xA 0xB) := by decide
theorem test_decode_ldI : decodeWord .loose false 0xA123 = .ok (.ldI 0x123) := by decide
theorem test_decode_jpV0 : decodeWord .loose false 0xB310 = .ok (.jpV0 0x310) := by decide
theorem test_decode_jpVx : decodeWord .loose true 0xB310 = .ok (.jpVx 3 0x310) := by decide
theorem test_decode_rnd : decodeWord .loose false 0xC30F = .ok (.rnd 3 0x0F) := by decide
theorem test_decode_drw : decodeWord .loose false 0xDBC5 = .ok (.drw 0xB 0xC 5) := by decide
theorem test_decode_skp : decodeWord .loose false 0xE19E = .ok (.skp 1) := by decide
theorem test_decode_sknp : decodeWord .loose false 0xE1A1 = .ok (.sknp 1) := by decide
theorem test_decode_ldVxDt : decodeWord .loose false 0xF307 = .ok (.ldVxDt 3) := by decide
theorem test_decode_ldVxK : decodeWord .loose false 0xF20A = .ok (.ldVxK 2) := by decide
theorem test_decode_ldDtVx : decodeWord .loose false 0xF015 = .ok (.ldDtVx 0) := by decide
theorem test_decode_ldStVx : decodeWord .loose false 0xF018 = .ok (.ldStVx 0) := by decide
theorem test_decode_addIVx : decodeWord .loose false 0xF21E = .ok (.addIVx 2) := by decide
theorem test_decode_ldFVx : decodeWord .loose false 0xF429 = .ok (.ldFVx 4) := by decide
theorem test_decode_ldBVx : decodeWord .loose false 0xF533 = .ok (.ldBVx 5) := by decide
theorem test_decode_ldMemVx : decodeWord .loose false 0xF255 = .ok (.ldMemVx 2) := by decide
theorem test_decode_ldVxMem : decodeWord .loose false 0xFF65 = .ok (.ldVxMem 0xF) := by decide

/-- R65: family 0 in loose mode goes by the low nibble. -/
theorem test_decode_family0_loose :
    decodeWord .loose false 0x0120 = .ok .cls ∧ decodeWord .loose false 0x0FFE = .ok .ret ∧
      decodeWord .loose false 0x0123 = .error .family0 := by decide

/-- R63: strict mode. -/
theorem test_decode_strict :
    decodeWord .strict false 0x0000 = .error .family0 ∧ decodeWord .strict false 0x5AB1 = .error .family5 ∧
      decodeWord .strict false 0x9AB1 = .error .family9 ∧ decodeWord .strict false 0x00E0 = .ok .cls := by decide

/-- R66, R67, R68: unrecognized words of families 8, E and F (V60, V125). -/
theorem test_decode_unrecognized :
    decodeWord .loose false 0x8118 = .error .family8 ∧ decodeWord .loose false 0xE09F = .error .familyE ∧
      decodeWord .loose false 0xF0FF = .error .familyF := by decide

/-- Two bytes make a word, the first one high; one byte makes none (R48). -/
theorem test_decode_bytes :
    decodeBytes .loose false [0xA1, 0x23, 0x77] = .ok (.ldI 0x123, [0x77]) ∧
      decodeBytes .loose false [0xA1] = .error .truncated := by decide

/-- R71: JP Vx is assembled as 0xB000 | addr. -/
theorem test_encode_words :
    encode (.jpVx 3 0x312) = 0xB312 ∧ encode (.drw 0xB 0xC 5) = 0xDBC5 ∧ encode (.shl 1 2) = 0x812E ∧
      encode (.ldVxMem 0xF) = 0xFF65 := by decide

/-! ### Memory, construction and Load -/

/-- The memory of the reset state is in its canonical form. -/
theorem test_reset_memory_wf : State.reset.mem.wf = true := by decide

/-- R47: the bytes of the glyph A at 0x082, and zero on both sides of the font. -/
theorem test_font : State.reset.mem.read 0x082 = 0xF0 ∧ State.reset.mem.read 0x083 = 0x90 ∧
    State.reset.mem.read 0x09F = 0x80 ∧ State.reset.mem.read 0x0A0 = 0 ∧ State.reset.mem.read 0x04F = 0 := by decide

/-- A byte written reads back; writing the value an address reads as anyhow leaves no entry. -/
theorem test_memory_canonical :
    Memory.read (Memory.write [] 0x300 7) 0x300 = 7 ∧ Memory.write (Memory.write [] 0x300 7) 0x300 0 = [] ∧
      Memory.write [] 0x050 0xF0 = [] ∧ Memory.write [(0x300, 7)] 0x050 0 = [(0x050, 0), (0x300, 7)] := by decide

/-- V144: a Load of no bytes succeeds, and the first step then clears the screen (word 0x0000). -/
theorem test_load_empty :
    (State.reset.load (.bytes [])).1 = true ∧ (State.reset.load (.bytes [])).2.loaded = true ∧
      (State.reset.load (.bytes [])).2.decoded = .ok .cls := by decide

/-- V143: an image of 3585 bytes does not load. -/
theorem test_load_too_long (image : List Byte) (h : image.length = 3585) :
    State.reset.load (.bytes image) = (false, State.reset) := if_pos (by rw [h]; decide)

/-- V142: no step before a Load. -/
theorem test_step_not_loaded : step State.reset = .fault .stepNotAdmitted ∧
    perform .step (Session.construct {} conventionalFont) = none := ⟨rfl, rfl⟩

/-- R57, R140: after a Load that failed no Load and no Step is admitted, and a Tick still is. -/
theorem test_failed_load_ends_run :
    ((performAll [.load .unreadable] (Session.construct {} conventionalFont)).map
      (fun r => (r.core.loaded, r.admits (.load (.bytes [0x12, 0x00])), r.admits .step, r.admits .tick))) =
        some (false, false, false, true) := by decide

/-! ### One step of each instruction -/

/-- The state one step leaves from `s` with the word `w` at pc. -/
def run (s : State) (w : Nat) : Option State :=
  match step (s.withFetchWord 16 w) with
  | .next t => some t
  | .fault _ => none
  | .refused _ => none

/-- The next step. -/
def again (s : Option State) : Option State :=
  match s with
  | some t =>
    match step t with
    | .next u => some u
    | .fault _ => none
    | .refused _ => none
  | none => none

/-- The reset state with a word loaded at pc. -/
def at0 (w : Nat) : State := State.reset.withFetchWord 16 w

/-- A run whose core is in `s`: a Load has been issued if `s` is loaded, no Tick is due. -/
def session (s : State) : Session where
  core := s
  loadIssued := s.loaded
  tickOwed := false

/-- The reset state with one register set. -/
def with1 (x : Reg) (a : Byte) : State := State.reset.setV x a

/-- The reset state with two registers set. -/
def with2 (x : Reg) (a : Byte) (y : Reg) (b : Byte) : State := (with1 x a).setV y b

/-- The state with I and a few bytes of memory set. -/
def withMem (s : State) (i : Word) (bytes : List Byte) : State :=
  { s with i := i, mem := s.mem.writeList i.toNat bytes }

/-- The framebuffer with the given rows, all others off; bit x of a row is its column x. -/
def rows (l : List (Fin 32 × BitVec 64)) : Frame := l.foldl (fun f p => f.set p.1.val p.2) State.reset.fb

/-- A stack of n equal entries. -/
def withStack (s : State) (n : Nat) : State := { s with stack := List.replicate n 0x202 }

/-- V100, S3: CLS. -/
theorem test_cls : (run { State.reset with fb := State.reset.fb.set 0 0xFF } 0x00E0).map
    (fun t => (t.fb, t.dirty, t.drew, t.pc)) = some (Frame.clear, true, false, 0x202) := by decide

/-- V1: RET. -/
theorem test_ret : (run { State.reset with stack := [0x300] } 0x00EE).map (fun t => (t.pc, t.stack)) = some (0x300, []) := by
  decide

/-- V2: RET with an empty stack. -/
theorem test_ret_underflow : (run State.reset 0x00EE).map (fun t => (t.pc, t.fault)) =
    some (0x200, { code := .stackUnderflow, pc := 0x200, op := some 0x00EE, addr := none }) := by decide

/-- V3, V19: JP; from 0xFFF the next fetch faults at 0x1000. -/
theorem test_jp : (run State.reset 0x1ABC).map State.pc = some 0xABC ∧
    (again (run State.reset 0x1FFF)).map (fun t => (t.pc, t.fault)) =
      some (0xFFF, { code := .fetchOutOfRange, pc := 0xFFF, op := none, addr := some 0x1000 }) := by decide

/-- V5: CALL. -/
theorem test_call : (run State.reset 0x2400).map (fun t => (t.pc, t.stack)) = some (0x400, [0x202]) := by decide

/-- V6: CALL with 16 entries. -/
theorem test_call_overflow : (run (withStack State.reset 16) 0x2400).map (fun t => (t.pc, t.stack.length, t.fault)) =
    some (0x200, 16, { code := .stackOverflow, pc := 0x200, op := some 0x2400, addr := none }) := by decide

/-- V7, V8: SE Vx, byte. -/
theorem test_seImm : (run (with1 0xA 0x12) 0x3A12).map State.pc = some 0x204 ∧
    (run (with1 0xA 0x13) 0x3A12).map State.pc = some 0x202 := by decide

/-- V9, V10: SNE Vx, byte. -/
theorem test_sneImm : (run (with1 0xA 0x12) 0x4A12).map State.pc = some 0x202 ∧
    (run (with1 0xA 0x13) 0x4A12).map State.pc = some 0x204 := by decide

/-- V11, V12: SE Vx, Vy. -/
theorem test_seReg : (run (with2 0xA 7 0xB 7) 0x5AB0).map State.pc = some 0x204 ∧
    (run (with2 0xA 7 0xB 8) 0x5AB0).map State.pc = some 0x202 := by decide

/-- V13: in strict mode 0x5AB1 is unrecognized. -/
theorem test_seReg_strict : (run { with2 0xA 7 0xB 7 with cfg := { decodeMode := .strict } } 0x5AB1).map
    (fun t => (t.pc, t.unkSeen, t.unkLast)) = some (0x202, true, 0x5AB1) := by decide

/-- V14, V15: SNE Vx, Vy. -/
theorem test_sneReg : (run (with2 0xA 7 0xB 8) 0x9AB0).map State.pc = some 0x204 ∧
    (run (with2 0xA 7 0xB 7) 0x9AB0).map State.pc = some 0x202 := by decide

/-- V16: JP V0, addr. -/
theorem test_jpV0 : (run (with2 0 0x10 3 0x20) 0xB300).map State.pc = some 0x310 := by decide

/-- V18: the largest target, and the fault of the fetch there. -/
theorem test_jpV0_top : (again (run (with1 0 0xFF) 0xBFFF)).map (fun t => (t.pc, t.fault)) =
    some (0x10FE, { code := .fetchOutOfRange, pc := 0x10FE, op := none, addr := some 0x10FE }) := by decide

/-- V17: JP Vx, addr under quirk_jump_offset. -/
theorem test_jpVx : (run { with2 0 0x10 3 0x20 with cfg := { jumpOffset := true } } 0xB300).map State.pc = some 0x320 := by
  decide

/-- V30, V31: LD Vx, byte. -/
theorem test_ldImm : (run State.reset 0x6A2B).map (fun t => (t.getV 0xA, t.pc)) = some (0x2B, 0x202) ∧
    (run State.reset 0x6F07).map (fun t => t.getV VF) = some 0x07 := by decide

/-- S1, V32, V33: ADD Vx, byte. -/
theorem test_addImm : (run (with2 3 0xF0 VF 0x55) 0x7320).map (fun t => (t.getV 3, t.getV VF)) = some (0x10, 0x55) ∧
    (run (with1 0 0x05) 0x70FF).map (fun t => t.getV 0) = some 0x04 := by decide

/-- V34: LD Vx, Vy. -/
theorem test_ldReg : (run (with1 2 0x99) 0x8120).map (fun t => (t.getV 1, t.getV 2)) = some (0x99, 0x99) := by decide

/-- V35: OR. -/
theorem test_orReg : (run ((with2 1 0xF0 2 0x0F).setV VF 0x55) 0x8121).map (fun t => (t.getV 1, t.getV VF)) =
    some (0xFF, 0x55) := by decide

/-- V36: AND. -/
theorem test_andReg : (run ((with2 1 0xF0 2 0x3C).setV VF 0x55) 0x8122).map (fun t => (t.getV 1, t.getV VF)) =
    some (0x30, 0x55) := by decide

/-- V37, V38: XOR. -/
theorem test_xorReg : (run ((with2 1 0xF0 2 0x3C).setV VF 0x55) 0x8123).map (fun t => (t.getV 1, t.getV VF)) =
    some (0xCC, 0x55) ∧ (run (with1 1 0xAB) 0x8113).map (fun t => t.getV 1) = some 0 := by decide

/-- V39, V40: ADD Vx, Vy. -/
theorem test_addReg : (run (with2 1 0xFF 2 0x01) 0x8124).map (fun t => (t.getV 1, t.getV VF)) = some (0x00, 1) ∧
    (run (with2 1 0x7F 2 0x01) 0x8124).map (fun t => (t.getV 1, t.getV VF)) = some (0x80, 0) := by decide

/-- V42, V43: ADD with VF as an operand. -/
theorem test_addReg_flag : (run (with2 1 0xF0 VF 0x20) 0x8F14).map (fun t => t.getV VF) = some 1 ∧
    (run (with2 1 0x10 VF 0x01) 0x81F4).map (fun t => (t.getV 1, t.getV VF)) = some (0x11, 0) := by decide

/-- V44, V45: SUB. -/
theorem test_sub : (run (with2 1 0x05 2 0x03) 0x8125).map (fun t => (t.getV 1, t.getV VF)) = some (0x02, 1) ∧
    (run (with2 1 0x03 2 0x05) 0x8125).map (fun t => (t.getV 1, t.getV VF)) = some (0xFE, 0) := by decide

/-- V46: SUB of equal values. -/
theorem test_sub_equal : (run (with2 1 0x05 2 0x05) 0x8125).map (fun t => (t.getV 1, t.getV VF)) = some (0x00, 1) := by
  decide

/-- V47, V48: SHR in place. -/
theorem test_shr : (run (with1 1 0x05) 0x8126).map (fun t => (t.getV 1, t.getV VF)) = some (0x02, 1) ∧
    (run (with1 1 0x04) 0x8126).map (fun t => (t.getV 1, t.getV VF)) = some (0x02, 0) := by decide

/-- V49, V50: SHR under quirk_shift_source, and with VF as destination. -/
theorem test_shr_source : (run { with2 1 0x05 2 0x81 with cfg := { shiftSource := true } } 0x8126).map
    (fun t => (t.getV 1, t.getV VF, t.getV 2)) = some (0x40, 1, 0x81) ∧
      (run (with1 VF 0x02) 0x8FF6).map (fun t => t.getV VF) = some 0 := by decide

/-- V51, V52: SUBN. -/
theorem test_subn : (run (with2 1 0x03 2 0x05) 0x8127).map (fun t => (t.getV 1, t.getV VF)) = some (0x02, 1) ∧
    (run (with2 1 0x05 2 0x03) 0x8127).map (fun t => (t.getV 1, t.getV VF)) = some (0xFE, 0) := by decide

/-- V54, V55: SHL in place. -/
theorem test_shl : (run (with1 1 0x81) 0x812E).map (fun t => (t.getV 1, t.getV VF)) = some (0x02, 1) ∧
    (run (with1 1 0x40) 0x812E).map (fun t => (t.getV 1, t.getV VF)) = some (0x80, 0) := by decide

/-- V56: SHL under quirk_shift_source. -/
theorem test_shl_source : (run { with2 1 0x01 2 0xC0 with cfg := { shiftSource := true } } 0x812E).map
    (fun t => (t.getV 1, t.getV VF)) = some (0x80, 1) := by decide

/-- R102: RND masks the draw, whatever it is, and each CXNN takes a draw of its own. -/
theorem test_rnd : (run State.reset 0xC30F).map (fun t => (t.getV 3, t.draws, t.pc)) =
    some (Config.draw 0 &&& 0x0F, 1, 0x202) := by rfl

/-- V57: for a draw of 0xA7 the mask 0x0F gives 0x07. -/
theorem test_rnd_mask (h : Config.draw 0 = 0xA7) : (run State.reset 0xC30F).map (fun t => t.getV 3) = some 0x07 := by
  have : (run State.reset 0xC30F).map (fun t => t.getV 3) = some (Config.draw 0 &&& 0x0F) := by rfl
  rw [this, h]
  decide

/-- V70: LD I, addr. -/
theorem test_ldI : (run State.reset 0xA123).map (fun t => (t.i, t.pc)) = some (0x123, 0x202) := by decide

/-- V71, V72: ADD I, Vx at its overflow bound. -/
theorem test_addIVx : (run { with1 2 1 with i := 0xFFF } 0xF21E).map (fun t => (t.i, t.getV VF)) = some (0, 1) ∧
    (run { with2 2 1 VF 0x55 with i := 0xFFE } 0xF21E).map (fun t => (t.i, t.getV VF)) = some (0xFFF, 0x55) := by decide

/-- V73, V74: ADD I, Vx from I = 0x1000, and with VF as operand. -/
theorem test_addIVx_edge : (run { State.reset with i := 0x1000 } 0xF01E).map (fun t => (t.i, t.getV VF)) = some (0, 1) ∧
    (run { with1 VF 0xFF with i := 0x100 } 0xFF1E).map (fun t => (t.i, t.getV VF)) = some (0x1FF, 0xFF) := by decide

/-- V75, V76, V77: LD F, Vx. -/
theorem test_ldFVx : (run (with1 4 0x0A) 0xF429).map State.i = some 0x082 ∧
    (run (with1 4 0x10) 0xF429).map State.i = some 0x0A0 ∧ (run (with1 4 0xFF) 0xF429).map State.i = some 0x54B := by decide

/-- V78, V81: LD B, Vx. -/
theorem test_ldBVx : (run { with1 5 254 with i := 0x300 } 0xF533).map
      (fun t => (t.mem.read 0x300, t.mem.read 0x301, t.mem.read 0x302, t.i)) = some (2, 5, 4, 0x300) ∧
    (run { with1 5 9 with i := 0xFFD } 0xF533).map (fun t => (t.mem.read 0xFFD, t.mem.read 0xFFE, t.mem.read 0xFFF)) =
      some (0, 0, 9) := by decide

/-- V82: LD B, Vx past the end of memory. -/
theorem test_ldBVx_fault : (run { with1 5 9 with i := 0xFFE } 0xF533).map (fun t => (t.fault, t.mem.read 0xFFE)) =
    some ({ code := .dataOutOfRange, pc := 0x200, op := some 0xF533, addr := some 0x1000 }, 0) := by decide

/-- V83, V84: LD [I], Vx without and with quirk_index_increment. -/
theorem test_ldMemVx : (run { (with2 0 1 1 2).setV 2 3 with i := 0x300 } 0xF255).map
      (fun t => (t.mem.read 0x300, t.mem.read 0x301, t.mem.read 0x302, t.mem.read 0x303, t.i)) = some (1, 2, 3, 0, 0x300) ∧
    (run { (with2 0 1 1 2).setV 2 3 with i := 0x300, cfg := { indexIncrement := true } } 0xF255).map
      (fun t => (t.mem.read 0x302, t.i)) = some (3, 0x303) := by decide

/-- V86: LD [I], Vx past the end of memory writes nothing. -/
theorem test_ldMemVx_fault : (run { (with2 0 1 1 2).setV 2 3 with i := 0xFFE } 0xF255).map
    (fun t => (t.fault.code, t.fault.addr, t.mem.read 0xFFE)) = some (.dataOutOfRange, some 0x1000, 0) := by decide

/-- V87: LD Vx, [I]. -/
theorem test_ldVxMem : (run (withMem State.reset 0x300 [2, 5, 4, 9]) 0xF265).map
    (fun t => (t.getV 0, t.getV 1, t.getV 2, t.getV 3, t.i)) = some (2, 5, 4, 0, 0x300) := by decide

/-- V88: LD VF, [I] up to the last byte of memory under quirk_index_increment leaves I = 0x1000. -/
theorem test_ldVxMem_top :
    (run { withMem State.reset 0xFF0 [0, 1, 2, 3, 4, 5, 6, 7, 8, 9, 10, 11, 12, 13, 14, 15] with
        cfg := { indexIncrement := true } } 0xFF65).map (fun t => (t.getV 1, t.getV 14, t.getV VF, t.i)) =
      some (1, 14, 15, 0x1000) := by decide

/-- V104, V105, V111: DRW across the right edge and across the bottom in linear mode, and with VF as a coordinate. -/
theorem test_drw : (run (withMem (with1 1 60) 0x300 [0xFF]) 0xD121).map (fun t => (t.fb, t.getV VF, t.dirty, t.drew)) =
      some (rows [(0, 0xF000000000000000), (1, 0xF)], 0, true, true) ∧
    (run (withMem (with1 2 31) 0x300 [0xFF, 0xFF]) 0xD122).map (fun t => (t.fb, t.getV VF)) =
      some (rows [(31, 0xFF), (0, 0xFF)], 0) ∧
    (run (withMem (with1 VF 2) 0x300 [0xFF]) 0xD1F1).map (fun t => (t.fb, t.getV VF)) = some (rows [(2, 0xFF)], 0) := by decide

/-- V107: DRW with a collision. -/
theorem test_drw_collision : (run { withMem State.reset 0x300 [0xFF] with fb := State.reset.fb.set 0 8 } 0xD121).map
    (fun t => (t.fb, t.getV VF)) = some (rows [(0, 0xF7)], 1) := by decide

/-- V120, V121: SKP. -/
theorem test_skp : (run ((with1 1 5).keyDown 5) 0xE19E).map State.pc = some 0x204 ∧
    (run (with1 1 5) 0xE19E).map State.pc = some 0x202 := by decide

/-- V124: SKP with a register that names no key. -/
theorem test_skp_fault : (run (with1 1 0x10) 0xE19E).map (fun t => (t.pc, t.fault)) =
    some (0x200, { code := .keyOutOfRange, pc := 0x200, op := some 0xE19E, addr := some 16 }) := by decide

/-- V122, V123: SKNP. -/
theorem test_sknp : (run (with1 1 5) 0xE1A1).map State.pc = some 0x204 ∧
    (run ((with1 1 5).keyDown 5) 0xE1A1).map State.pc = some 0x202 := by decide

/-- V126: LD Vx, DT. -/
theorem test_ldVxDt : (run { State.reset with dt := 0x3C } 0xF307).map (fun t => (t.getV 3, t.dt)) = some (0x3C, 0x3C) := by
  decide

/-- V127: LD Vx, K with no key pressed. -/
theorem test_ldVxK_waits : (run (with1 2 9) 0xF20A).map (fun t => (t.pc, t.getV 2)) = some (0x200, 9) := by decide

/-- V128: LD Vx, K takes the lowest pressed key. -/
theorem test_ldVxK : (run ((State.reset.keyDown 7).keyDown 3) 0xF20A).map (fun t => (t.pc, t.getV 2)) = some (0x202, 3) := by
  decide

/-- V130: LD DT, Vx. -/
theorem test_ldDtVx : (run (with1 0 5) 0xF015).map (fun t => (t.dt, t.st)) = some (5, 0) := by decide

/-- V132: LD ST, Vx, the tone, and two Ticks. -/
theorem test_ldStVx : (run (with1 0 2) 0xF018).map
    (fun t => (t.st, t.dt, t.toneActive, t.tick.tick.st, t.tick.tick.toneActive)) = some (2, 0, true, 0, false) := by decide

/-! ### The step and the display alternatives -/

/-- V60: an unrecognized word as a no-op. -/
theorem test_unknown_nop : (run State.reset 0x8118).map (fun t => (t.pc, t.unkSeen, t.unkLast, t.fault.code)) =
    some (0x202, true, 0x8118, .noFault) := by decide

/-- V61: an unrecognized word as a fault. -/
theorem test_unknown_fault : (run { State.reset with cfg := { unknownOp := .fault } } 0x8118).map
    (fun t => (t.pc, t.unkSeen, t.fault)) =
      some (0x200, false, { code := .unknownOpcode, pc := 0x200, op := some 0x8118, addr := none }) := by decide

/-- V112: a sprite past the right edge, clipped. -/
theorem test_drw_clip :
    (run { withMem (with1 1 60) 0x300 [0xFF] with cfg := { spriteWrap := .clip } } 0xD121).map State.fb =
      some (rows [(0, 0xF000000000000000)]) := by decide

/-- V113: a sprite past the right edge, wrapped in its row. -/
theorem test_drw_axis :
    (run { withMem (with1 1 60) 0x300 [0xFF] with cfg := { spriteWrap := .axis } } 0xD121).map State.fb =
      some (rows [(0, 0xF00000000000000F)]) := by decide

/-- V140: a halted core does not step, and Tick still acts. -/
theorem test_halted : (again (run { State.reset with dt := 4 } 0x00EE)).map (fun t => (t.pc, t.fault.code, t.tick.dt)) =
    some (0x200, .stackUnderflow, 3) := by decide

/-- S8, V133, V134: Tick, each timer by itself and never below zero. -/
theorem test_tick : { State.reset with dt := 1 }.tick.dt = 0 ∧ State.reset.tick.dt = 0 ∧
    { State.reset with st := 3 }.tick.st = 2 ∧ { State.reset with st := 3 }.tick.dt = 0 := by decide

/-- V135, V136: key events and ClearDirty. -/
theorem test_host_operations : (State.reset.keyDown 0xA).key[(0xA : Key)] = true ∧
    ((State.reset.keyDown 0xA).keyUp 0xA).key[(0xA : Key)] = false ∧
    { State.reset with dirty := true }.clearDirty.dirty = false := by decide

/-- V145, R131, D14: under quirk_draw_pacing a Step that drew makes a Tick due, and without the quirk none. -/
theorem test_draw_pacing :
    (performAll [.step, .keyDown 1] (session { at0 0xD121 with cfg := { drawPacing := true } })).map
      (fun r => (r.core.drew, r.tickOwed, (perform .step r).isNone, (performAll [.tick, .step] r).isSome)) =
        some (true, true, true, true) ∧
    (performAll [.step, .step] (session (at0 0xD121))).map (fun r => (r.core.drew, r.tickOwed)) = some (false, false) := by
  decide

/-- V4: a jump to itself is idle (R137). -/
theorem test_idle : Idle (State.reset.withFetchWord 16 0x1200) := by unfold Idle; decide

/-! ### Witnesses: states and operands that meet the hypotheses of each statement -/

/-- A state with a word placed at a pc of its own. -/
def atPc (pc : Word) (w : Nat) : State := { State.reset with pc := pc }.withFetchWord 16 w

theorem witness_ConstructedState_load :
    (State.construct {} conventionalFont).load (.bytes [0x12, 0x00]) =
      (true, { State.construct {} conventionalFont with mem := (State.construct {} conventionalFont).mem.writeList 0x200 [0x12, 0x00],
                                                        loaded := true }) := by rfl

/-- The addresses at the ends of the ranges the statement names: zero around the font, and around a two-byte image. -/
theorem witness_ConstructedState_ranges :
    ¬ (0x050 ≤ 0x04F ∧ 0x04F < 0x0A0) ∧ ¬ (0x050 ≤ 0x0A0 ∧ 0x0A0 < 0x0A0) ∧ 0xFFF < 4096 ∧
      ¬ (0x200 ≤ 0x1FF ∧ 0x1FF < 0x200 + 2) ∧ ¬ (0x200 ≤ 0x202 ∧ 0x202 < 0x200 + 2) := by decide

/-- A state at the bounds the invariant names: a full stack of entries 0x1000, I = 0x1000, pc = 0x10FE. -/
def atBounds : State := { State.reset with stack := List.replicate 16 0x1000, i := 0x1000, pc := 0x10FE, loaded := true }

theorem witness_StepKeepsInvariant : Inv atBounds ∧ step atBounds = .next atBounds.raiseFetch :=
  ⟨⟨by decide, by decide, fun a ha => by rw [List.eq_of_mem_replicate ha]; decide, by decide, by decide, by decide,
    by decide, by decide⟩, rfl⟩

/-- And a state whose step stores to memory. -/
theorem witness_StepKeepsInvariant_store : Inv (at0 0xF055) ∧ ∃ t, step (at0 0xF055) = .next t :=
  ⟨⟨by decide, by decide, (fun a ha => by cases ha), by decide, by decide, by decide, by decide, by decide⟩, _, rfl⟩

/-- A run in which a Tick is due. -/
def owing : Session where
  core := { at0 0xD120 with cfg := { drawPacing := true }, drew := true }
  loadIssued := true
  tickOwed := true

theorem witness_OperationsKeepInvariant : SessionInv owing ∧
    perform .tick owing = some (.done, { owing with core := owing.core.tick, tickOwed := false }) :=
  ⟨⟨⟨by decide, by decide, (fun a ha => by cases ha), by decide, by decide, by decide, by decide, by decide⟩,
    by decide, by decide⟩, rfl⟩

/-- A point of a run: Construct, Load of CLS, Step, Tick. -/
theorem witness_ReachableStatesSatisfyInvariant : ∃ r, Reachable r ∧ r.core.pc = 0x202 ∧ r.core.dirty = true :=
  ⟨_, .operation .tick _ _ .done (.operation .step _ _ .done (.operation (.load (.bytes [0x00, 0xE0])) _ _ (.loadResult true)
    (.construct {} conventionalFont) rfl) rfl) rfl, rfl, rfl⟩

theorem witness_StepRunsDecoded : Runs (at0 0x8124) (.addReg 1 2) ∧ Runs (atPc 0xFFE 0x6007) (.ldImm 0 7) ∧
    Runs (atPc 0x301 0x6A05) (.ldImm 0xA 5) := by unfold Runs; decide

/-- One whose instruction raises a fault (the other branch of the conclusion). -/
theorem witness_StepRunsDecoded_fault : Runs (at0 0x00EE) .ret ∧ exec .ret ((at0 0x00EE).fetched false) =
    .next (((at0 0x00EE).fetched false).raise .stackUnderflow none) := by
  refine ⟨by unfold Runs; decide, rfl⟩

/-- For each clause: nothing loaded and no Load issued; loaded and no Tick due; loaded; not loaded and a Load issued. -/
theorem witness_LoadOnceThenStep :
    ((session State.reset).core.loaded = false ∧ (session State.reset).loadIssued = false) ∧
    ((session (at0 0x00E0)).core.loaded = true ∧ (session (at0 0x00E0)).tickOwed = false) ∧
    ({ session State.reset with loadIssued := true }.core.loaded = false ∧
      { session State.reset with loadIssued := true }.loadIssued = true) := by decide

/-- A Load that fails, and operations after it. -/
theorem witness_FailedLoadEndsRun :
    perform (.load .unreadable) (session State.reset) =
        some (.loadResult false, { session State.reset with loadIssued := true }) ∧
      ∃ u, performAll [.tick, .keyDown 1, .clearDirty] { session State.reset with loadIssued := true } = some u :=
  ⟨rfl, _, rfl⟩

/-- A halted, loaded core; and an operation on it. -/
theorem witness_HaltedCore :
    let r := session (faulted (at0 0x00EE) .stackUnderflow none)
    Halted r.core ∧ r.core.loaded = true ∧ perform (.keyDown 1) r = some (.done, { r with core := r.core.keyDown 1 }) := by
  refine ⟨?_, by decide, rfl⟩
  unfold Halted
  decide

/-- Fetches at the bounds: the last pc inside, the two kinds outside. -/
theorem witness_FetchReadsOrFaults :
    ({ State.reset with pc := 0xFFF, loaded := true }.pc.toNat + 1 > 0x0FFF ∧
      { State.reset with pc := 0x1000, loaded := true }.pc.toNat + 1 > 0x0FFF) ∧
    { State.reset with pc := 0xFFE }.pc.toNat + 1 ≤ 0x0FFF ∧ State.reset.fault.code = .noFault := by decide

theorem witness_UnrecognizedWord :
    (at0 0x8118).decoded = .error .family8 ∧ (at0 0x8118).canFetch = true ∧ (at0 0x8118).loaded = true ∧
      (at0 0x8118).fault.code = .noFault ∧ (at0 0x8118).cfg.unknownOp = .nop ∧
      { at0 0x8118 with cfg := { unknownOp := .fault } }.decoded = .error .family8 ∧
      { at0 0x8118 with cfg := { unknownOp := .fault } }.canFetch = true ∧
      { at0 0x8118 with cfg := { unknownOp := .fault } }.loaded = true ∧
      { at0 0x8118 with cfg := { unknownOp := .fault } }.cfg.unknownOp = .fault := by decide

theorem witness_FaultsArePrecise : Runs (at0 0x00EE) .ret ∧ exec .ret ((at0 0x00EE).fetched (isDraw .ret)) =
      .next (((at0 0x00EE).fetched false).raise .stackUnderflow none) ∧
    step (at0 0x00EE) = .next (faulted (at0 0x00EE) .stackUnderflow none) ∧
    (faulted (at0 0x00EE) .stackUnderflow none).fault ≠ (at0 0x00EE).fault := by
  refine ⟨by unfold Runs; decide, rfl, rfl, by decide⟩

/-- Every fault of the table is raised from some state that meets the hypotheses, and a step without a fault too. -/
theorem witness_FaultConditions :
    (run State.reset 0x00EE).map (fun t => t.fault.code) = some .stackUnderflow ∧
    (run (withStack State.reset 16) 0x2400).map (fun t => t.fault.code) = some .stackOverflow ∧
    (again (some { State.reset with pc := 0xFFF, loaded := true })).map (fun t => (t.fault.code, t.fault.addr)) =
      some (.fetchOutOfRange, some 0x1000) ∧
    (again (some { State.reset with pc := 0x1001, loaded := true })).map (fun t => (t.fault.code, t.fault.addr)) =
      some (.fetchOutOfRange, some 0x1001) ∧
    (run { State.reset with i := 0xFFF } 0xD122).map (fun t => (t.fault.code, t.fault.addr)) =
      some (.dataOutOfRange, some 0x1000) ∧
    (run { State.reset with i := 0xFFE } 0xF033).map (fun t => t.fault.code) = some .dataOutOfRange ∧
    (run { State.reset with i := 0xFFF } 0xF155).map (fun t => t.fault.code) = some .dataOutOfRange ∧
    (run { State.reset with i := 0xFFF } 0xF165).map (fun t => t.fault.code) = some .dataOutOfRange ∧
    (run (with1 1 16) 0xE1A1).map (fun t => (t.fault.code, t.fault.addr)) = some (.keyOutOfRange, some 16) ∧
    (run { State.reset with cfg := { unknownOp := .fault } } 0xF0FF).map (fun t => t.fault.code) = some .unknownOpcode ∧
    (run State.reset 0xD120).map (fun t => t.fault.code) = some .noFault := by decide

/-- A step without a fault: a skip taken at 0x0FFE, which leaves pc = 0x1002 (R23). -/
theorem witness_PcAfterStep : (atPc 0xFFE 0x3000).fault.code = .noFault ∧
    (again (some (atPc 0xFFE 0x3000))).map (fun t => (t.pc, t.fault.code)) = some (0x1002, .noFault) := by decide

theorem witness_DirtyAndDrewAfterStep :
    (run State.reset 0xD120).map (fun t => (t.drew, t.dirty, t.fault.code)) = some (true, true, .noFault) ∧
    (run State.reset 0x00E0).map (fun t => (t.drew, t.dirty)) = some (false, true) ∧
    (run State.reset 0x6000).map (fun t => (t.drew, t.dirty)) = some (false, false) := by decide

/-- A step, and one that draws a random byte. -/
theorem witness_StepKeepsConfigurationAndKeys : ∃ t, step (at0 0xC30F) = .next t ∧ t.draws ≠ (at0 0xC30F).draws :=
  ⟨_, rfl, by decide⟩

/-- FX33 writes the last of its three bytes, FX55 the last of its own. -/
theorem witness_MemoryWrittenOnlyByStores :
    State.reset.mem.wf = true ∧ (run { with1 5 9 with i := 0xFFD } 0xF533).map (fun t => t.mem.read 0xFFF) = some 9 ∧
    (run { with1 2 3 with i := 0xFFD } 0xF255).map (fun t => t.mem.read 0xFFF) = some 3 ∧
    State.reset.mem.read 0xFFF = 0 := by decide

theorem witness_RegistersWrittenOnlyBy :
    (run (with2 1 0xFF 2 2) 0x8124).map (fun t => (t.getV 1 ≠ 0xFF, t.getV VF ≠ 0)) = some (True, True) ∧
    (run (withMem State.reset 0x300 [2, 5]) 0xF165).map (fun t => t.getV 1) = some 5 := by
  refine ⟨?_, by decide⟩
  have : (run (with2 1 0xFF 2 2) 0x8124).map (fun t => (t.getV 1, t.getV VF)) = some (1, 1) := by decide
  cases h : run (with2 1 0xFF 2 2) 0x8124 with
  | none => rw [h] at this; cases this
  | some t =>
    rw [h] at this
    simp only [Option.map_some, Option.some.injEq, Prod.mk.injEq] at this
    simp [this.1, this.2]

/-- For each clause a step that changes what the clause is about. -/
theorem witness_SpecialStateWrittenOnlyBy :
    (run State.reset 0xA123).map State.i = some 0x123 ∧
    (run { State.reset with i := 0xFFF, cfg := { indexIncrement := true } } 0xF055).map State.i = some 0x1000 ∧
    (run State.reset 0x2400).map State.stack = some [0x202] ∧ (run (with1 0 5) 0xF015).map State.dt = some 5 ∧
    (run (with1 0 5) 0xF018).map State.st = some 5 ∧
    (run (withMem State.reset 0x300 [0x80]) 0xD001).map (fun t => t.fb.pixel 0) = some true ∧
    (run State.reset 0x8118).map (fun t => (t.unkSeen, t.unkLast)) = some (true, 0x8118) := by decide

theorem witness_DecodeOfEncode :
    (Instr.jpVx 0xF 0xFFF).wellFormed = true ∧ (Instr.jpVx 0xF 0xFFF).selected true = true ∧
    (Instr.jpV0 0xFFF).wellFormed = true ∧ (Instr.jpV0 0xFFF).selected false = true ∧
    (Instr.drw 0xF 0xF 0xF).wellFormed = true ∧ (Instr.drw 0xF 0xF 0xF).selected true = true := by decide

/-- For every mask and match of the table a word that meets it, ignored bits set. -/
theorem witness_RowsDecode :
    (0x0FF0 : Word) &&& 0xF00F = 0x0000 ∧ (0x0FFE : Word) &&& 0xF00F = 0x000E ∧ (0x1FFF : Word) &&& 0xF000 = 0x1000 ∧
    (0x2FFF : Word) &&& 0xF000 = 0x2000 ∧ (0x3FFF : Word) &&& 0xF000 = 0x3000 ∧ (0x4FFF : Word) &&& 0xF000 = 0x4000 ∧
    (0x5FFF : Word) &&& 0xF000 = 0x5000 ∧ (0x5FF0 : Word) &&& 0xF00F = 0x5000 ∧ (0x6FFF : Word) &&& 0xF000 = 0x6000 ∧
    (0x7FFF : Word) &&& 0xF000 = 0x7000 ∧ (0x8FF0 : Word) &&& 0xF00F = 0x8000 ∧ (0x8FF1 : Word) &&& 0xF00F = 0x8001 ∧
    (0x8FF2 : Word) &&& 0xF00F = 0x8002 ∧ (0x8FF3 : Word) &&& 0xF00F = 0x8003 ∧ (0x8FF4 : Word) &&& 0xF00F = 0x8004 ∧
    (0x8FF5 : Word) &&& 0xF00F = 0x8005 ∧ (0x8FF6 : Word) &&& 0xF00F = 0x8006 ∧ (0x8FF7 : Word) &&& 0xF00F = 0x8007 ∧
    (0x8FFE : Word) &&& 0xF00F = 0x800E ∧ (0x9FFF : Word) &&& 0xF000 = 0x9000 ∧ (0x9FF0 : Word) &&& 0xF00F = 0x9000 ∧
    (0xAFFF : Word) &&& 0xF000 = 0xA000 ∧ (0xBFFF : Word) &&& 0xF000 = 0xB000 ∧ (0xCFFF : Word) &&& 0xF000 = 0xC000 ∧
    (0xDFFF : Word) &&& 0xF000 = 0xD000 ∧ (0xEF9E : Word) &&& 0xF0FF = 0xE09E ∧ (0xEFA1 : Word) &&& 0xF0FF = 0xE0A1 ∧
    (0xFF07 : Word) &&& 0xF0FF = 0xF007 ∧ (0xFF0A : Word) &&& 0xF0FF = 0xF00A ∧ (0xFF15 : Word) &&& 0xF0FF = 0xF015 ∧
    (0xFF18 : Word) &&& 0xF0FF = 0xF018 ∧ (0xFF1E : Word) &&& 0xF0FF = 0xF01E ∧ (0xFF29 : Word) &&& 0xF0FF = 0xF029 ∧
    (0xFF33 : Word) &&& 0xF0FF = 0xF033 ∧ (0xFF55 : Word) &&& 0xF0FF = 0xF055 ∧ (0xFF65 : Word) &&& 0xF0FF = 0xF065 := by
  decide

/-- For every line of R64 that names no instruction a word it covers. -/
theorem witness_RowsDecode_unrecognized :
    (fieldF 0x0123 = 0x0 ∧ fieldN 0x0123 ≠ 0x0 ∧ fieldN 0x0123 ≠ 0xE) ∧
    (fieldF 0x8118 = 0x8 ∧ fieldN 0x8118 ∈ ([0x8, 0x9, 0xA, 0xB, 0xC, 0xD, 0xF] : List Nibble)) ∧
    (fieldF 0xE09F = 0xE ∧ fieldNN 0xE09F ≠ 0x9E ∧ fieldNN 0xE09F ≠ 0xA1) ∧
    (fieldF 0xF0FF = 0xF ∧ fieldNN 0xF0FF ∉ ([0x07, 0x0A, 0x15, 0x18, 0x1E, 0x29, 0x33, 0x55, 0x65] : List Byte)) := by
  decide

theorem witness_DecodeModesDiffer : decodeWord .strict false 0x00E0 = .ok .cls ∧
    decodeWord .strict false 0x00F0 ≠ decodeWord .loose false 0x00F0 ∧
    decodeWord .strict false 0x5AB1 ≠ decodeWord .loose false 0x5AB1 := by decide

theorem witness_RetPopsOrFaults : { State.reset with stack := [0x300] }.stack = [] ++ [0x300] ∧
    Runs (at0 0x00EE) .ret ∧ (at0 0x00EE).stack = [] := by unfold Runs; decide

theorem witness_CallPushesOrFaults : (withStack State.reset 15).stack.length < 16 ∧
    Runs (withStack (at0 0x2400) 16) (.call 0x400) ∧ (withStack (at0 0x2400) 16).stack.length = 16 := by unfold Runs; decide

theorem witness_CallThenRet : (withStack State.reset 15).stack.length < 16 := by decide

/-- The destination of a flag-writing operation is VF or is not, with a carry and without, with a borrow and without. -/
theorem witness_AddWithCarry : (1 : Reg) ≠ VF ∧ ((with2 1 0xFF 2 1).getV 1).toNat + ((with2 1 0xFF 2 1).getV 2).toNat > 255 ∧
    ¬ (((with2 1 0xFE 2 1).getV 1).toNat + ((with2 1 0xFE 2 1).getV 2).toNat > 255) := by decide

theorem witness_SubtractWithBorrow : (1 : Reg) ≠ VF ∧ ((with2 1 5 2 5).getV 1).toNat ≥ ((with2 1 5 2 5).getV 2).toNat ∧
    ¬ (((with2 1 4 2 5).getV 1).toNat ≥ ((with2 1 4 2 5).getV 2).toNat) := by decide

theorem witness_ShiftsByOne : (0 : Reg) ≠ VF ∧ { State.reset with cfg := { shiftSource := true } }.cfg.shiftSource = true ∧
    State.reset.cfg.shiftSource = false := by decide

theorem witness_IndexAdd :
    ({ with1 2 1 with i := 0xFFF }.i.toNat + ({ with1 2 1 with i := 0xFFF }.getV 2).toNat) % 65536 > 0x0FFF ∧
    ({ with1 2 1 with i := 0xFFE }.i.toNat + ({ with1 2 1 with i := 0xFFE }.getV 2).toNat) % 65536 ≤ 0x0FFF := by decide

theorem witness_BcdStoresDigits : { State.reset with i := 0xFFD }.mem.wf = true ∧
    { State.reset with i := 0xFFD }.i.toNat + 2 ≤ 0x0FFF ∧ Runs { at0 0xF533 with i := 0xFFE } (.ldBVx 5) ∧
    { at0 0xF533 with i := 0xFFE }.i.toNat + 2 > 0x0FFF := by unfold Runs; decide

theorem witness_StoreRegisters : { State.reset with i := 0xFF0 }.mem.wf = true ∧
    { State.reset with i := 0xFF0 }.i.toNat + (15 : Reg).val ≤ 0x0FFF ∧ Runs { at0 0xFF55 with i := 0xFF1 } (.ldMemVx 15) ∧
    { at0 0xFF55 with i := 0xFF1 }.i.toNat + (15 : Reg).val > 0x0FFF ∧ Runs { at0 0xF055 with i := 0x1000 } (.ldMemVx 0) ∧
    { at0 0xF055 with i := 0x1000 }.i.toNat + (0 : Reg).val > 0x0FFF := by unfold Runs; decide

theorem witness_LoadRegisters : { State.reset with i := 0xFFF }.i.toNat + (0 : Reg).val ≤ 0x0FFF ∧
    Runs { at0 0xF165 with i := 0xFFF } (.ldVxMem 1) ∧ { at0 0xF165 with i := 0xFFF }.i.toNat + (1 : Reg).val > 0x0FFF := by
  unfold Runs; decide

theorem witness_StoreThenLoadRestores :
    let s := { with2 0 0x11 1 0x22 with i := 0xFFE }
    s.mem.wf = true ∧ s.i.toNat + (1 : Reg).val ≤ 0x0FFF ∧
      ∃ t u, exec (.ldMemVx 1) s = .next t ∧ exec (.ldVxMem 1) { t with v := Vector.replicate 16 0, i := s.i } = .next u :=
  ⟨by decide, by decide, _, _, rfl, rfl⟩

/-- V90 with two registers: FX55 writes the word after its own. -/
theorem witness_StoreSeenByNextFetch :
    let s := { (at0 0xF155).setV 0 0x12 with i := 0x202 }
    s.mem.wf = true ∧ Runs s (.ldMemVx 1) ∧ s.i.toNat = s.pc.toNat + 2 ∧ 1 ≤ (1 : Reg).val ∧
      s.i.toNat + (1 : Reg).val ≤ 0x0FFF ∧ ∃ t, step s = .next t :=
  ⟨by decide, by unfold Runs; decide, by decide, by decide, by decide, _, rfl⟩

/-- N = 0 with I past the end, a last row at 0xFFF, one row too many; a covered cell, on and off. -/
theorem witness_DrawLinear :
    State.reset.cfg.spriteWrap = .linear ∧ (0 : Nibble) = 0 ∧
    { State.reset with i := 0xFF1 }.i.toNat + (15 : Nibble).toNat - 1 ≤ 0x0FFF ∧
    Runs { at0 0xD122 with i := 0xFFF } (.drw 1 2 2) ∧ (2 : Nibble) ≠ 0 ∧
    { at0 0xD122 with i := 0xFFF }.i.toNat + (2 : Nibble).toNat - 1 > 0x0FFF ∧
    ((withMem State.reset 0x300 [0x80]).mem.read (0x300 + 0)).getLsbD (7 - 0) = true ∧
    { State.reset with fb := State.reset.fb.set 0 1 }.fb.pixel 0 = true ∧ State.reset.fb.pixel 0 = false := by
  unfold Runs; decide

theorem witness_DrawClipAndAxis :
    { State.reset with cfg := { spriteWrap := .clip } }.cfg.spriteWrap ≠ .linear ∧
    { State.reset with cfg := { spriteWrap := .axis } }.cfg.spriteWrap ≠ .linear ∧
    { State.reset with i := 0xFFF }.i.toNat + (1 : Nibble).toNat - 1 ≤ 0x0FFF := by decide

theorem witness_DrawTwiceRestores :
    let s := withMem State.reset 0xFFF [0xFF]
    (1 : Reg) ≠ VF ∧ (2 : Reg) ≠ VF ∧ s.i.toNat + (1 : Nibble).toNat - 1 ≤ 0x0FFF ∧
      ∃ t u, exec (.drw 1 2 1) s = .next t ∧ exec (.drw 1 2 1) t = .next u :=
  ⟨by decide, by decide, by decide, _, _, rfl, rfl⟩

theorem witness_SkipsOnKey : ((with1 1 15).getV 1).toNat = (15 : Key).val ∧
    Runs ((at0 0xE19E).setV 1 16) (.skp 1) ∧ Runs ((at0 0xE1A1).setV 1 16) (.sknp 1) ∧
    (((at0 0xE19E).setV 1 16).getV 1).toNat ≥ 16 := by unfold Runs; decide

theorem witness_WaitForKey : (∀ k : Key, State.reset.key[k] = false) ∧
    ((State.reset.keyDown 7).keyDown 3).key[(3 : Key)] = true ∧
    (∀ j : Key, j < 3 → ((State.reset.keyDown 7).keyDown 3).key[j] = false) := by decide

theorem witness_LoadCopiesOrFails : State.reset.mem.wf = true ∧
    (∀ b : Byte, (List.replicate (3584 + 1) b).length > 3584) ∧ (∀ b : Byte, (List.replicate 3584 b).length ≤ 3584) :=
  ⟨by decide, fun b => by rw [List.length_replicate]; decide, fun b => by rw [List.length_replicate]⟩

theorem witness_IdleStaysIdle : Idle (at0 0x1200) ∧ (at0 0x1200).loaded = true ∧ Idle (atPc 0xFFE 0x1FFE) := by
  unfold Idle; decide

theorem witness_DiagnosticsAreNotRead : ∃ t, step (at0 0x8124) = .next t := ⟨_, rfl⟩

theorem witness_DrawPacingHasNoEffect : ∃ t, step (at0 0xD120) = .next t := ⟨_, rfl⟩

/-- A Step that drew under the quirk and operations after it without a Tick; and a Step with the quirk off. -/
theorem witness_PacingAsksForTick :
    let r := session { at0 0xD120 with cfg := { drawPacing := true } }
    r.core.cfg.drawPacing = true ∧
      (∃ q u, perform .step r = some (.done, q) ∧ q.core.drew = true ∧ .tick ∉ [Operation.keyDown 1, .clearDirty] ∧
        performAll [.keyDown 1, .clearDirty] q = some u) ∧
      (session (at0 0xD120)).core.cfg.drawPacing = false ∧ ∃ q, perform .step (session (at0 0xD120)) = some (.done, q) :=
  ⟨rfl, ⟨_, _, rfl, rfl, by decide, rfl⟩, rfl, _, rfl⟩

end Sys2Proof.Tests
end

section
/-! The statements of 10_state.md: the state after construction and what a successful Load changes of it (R39), and pc after
a step that raises no fault (R22). -/

namespace Sys2Proof.Proofs.StateBlock

open Sys2Proof Sys2Proof.Machine Sys2Proof.Safety

/-! ### Construction and Load (R39) -/

/-- Addresses outside the font hold zero until something is written there (R43). -/
theorem unlisted_of_not_font {a : Nat} (h : ¬ (0x050 ≤ a ∧ a < 0x0A0)) : Memory.unlisted a = 0 := dif_neg h

/-- Memory after construction: the given font at 0x050, zero elsewhere (R39, R47). -/
theorem read_construct (cfg : Config) (font : Vector Byte 80) (a : Nat) :
    (State.construct cfg font).mem.read a = if h : 0x050 ≤ a ∧ a < 0x0A0 then font[a - 0x050]'(by omega) else 0 := by
  have hlen : fontBase + font.toList.length ≤ memSize := by rw [Vector.length_toList]; decide
  rw [State.construct, Memory.read_writeList rfl hlen]
  by_cases h : 0x050 ≤ a ∧ a < 0x0A0
  · rw [dif_pos h, dif_pos (by rwa [Vector.length_toList]), Vector.getElem_toList]
  · rw [dif_neg h, dif_neg (by rwa [Vector.length_toList]), Memory.read, unlisted_of_not_font h]

theorem wf_construct (cfg : Config) (font : Vector Byte 80) : (State.construct cfg font).mem.wf = true :=
  Memory.wf_writeList rfl (by rw [Vector.length_toList]; decide)

/-- A Load that succeeds had an image that fits, and changes memory by that image and `loaded` (R56). -/
theorem load_eq_true {s t : State} {image : List Byte} (h : s.load (.bytes image) = (true, t)) :
    image.length ≤ maxRom ∧ t = { s with mem := s.mem.writeList loadBase image, loaded := true } := by
  rcases load_cases s (.bytes image) with hfail | ⟨bs, hbs, hlen, hok⟩
  · cases hfail.symm.trans h
  · cases hbs
    cases hok.symm.trans h
    exact ⟨hlen, rfl⟩

/-- Settles O1: memory by `read_construct`, the other elements by R39's literal values, Load by `load_eq_true`. -/
theorem constructedState : Obligations.ConstructedState := by
  unfold Obligations.ConstructedState
  intro cfg font s
  refine ⟨fun a _ ha => ?_, fun k => ?_, rfl, fun r => ?_, rfl, rfl, rfl, rfl, Frame.pixel_clear, fun k => ?_, rfl, rfl,
    rfl, rfl, rfl, rfl, rfl, rfl, fun image t ht => ?_⟩
  · rw [read_construct, dif_neg ha]
  · rw [read_construct, dif_pos (by omega)]
    simp only [Nat.add_sub_cancel_left, Fin.getElem_fin]
  · exact Vector.getElem_replicate r.isLt
  · exact Vector.getElem_replicate k.isLt
  · obtain ⟨hlen, rfl⟩ := load_eq_true ht
    have hfit : loadBase + image.length ≤ memSize := by simp only [loadBase, memSize, maxRom] at hlen ⊢; omega
    exact ⟨rfl, rfl, fun a ha => by rw [Memory.read_writeList (wf_construct cfg font) hfit, dif_neg ha]⟩

/-! ### pc after a step (R22) -/

/-- The instructions whose meaning names pc: R22's lines other than its default. -/
def setsPc : Instr → Bool
  | .ret | .jp _ | .call _ | .jpV0 _ | .jpVx _ _ | .seImm _ _ | .sneImm _ _ | .seReg _ _ | .sneReg _ _ | .skp _ | .sknp _
  | .ldVxK _ => true
  | _ => false

/-- R22's default: every other instruction leaves pc where the fetch phase put it. -/
theorem pc_eq_of_setsPc_eq_false {i : Instr} {s t : State} (h : Completed i s t) (hi : setsPc i = false) :
    t.pc = s.pc := by
  cases i with
  | ret | jp | call | jpV0 | jpVx | seImm | sneImm | seReg | sneReg | skp | sknp | ldVxK => cases hi
  | addIVx x => rcases h with ⟨-, rfl⟩ | ⟨-, rfl⟩ <;> rfl
  | ldBVx x => obtain ⟨-, rfl⟩ := h; rfl
  | ldMemVx x => obtain ⟨-, rfl⟩ := h; rw [State.advanceI_eq]
  | ldVxMem x => obtain ⟨-, rfl⟩ := h; rw [State.advanceI_eq, loadRegs_eq]
  | drw x y n => obtain ⟨-, rfl⟩ := h; rfl
  | _ => cases h; rfl

@[simp] theorem getV_fetched (s : State) (d : Bool) (r : Reg) : (s.fetched d).getV r = s.getV r := rfl

/-- A conditional skip in the execute phase, from the address A of the instruction: A + 4 or A + 2 (R22). -/
theorem pc_skipIf_fetched (s : State) (d c : Bool) :
    ((s.fetched d).skipIf c).pc = if c then s.pc + 4 else s.pc + 2 := by
  rw [State.skipIf_eq, State.fetched_pc, BitVec.add_assoc]
  rfl

theorem zextAddr_eq_ofNat (nnn : Addr12) : zextAddr nnn = BitVec.ofNat 16 nnn.toNat :=
  (BitVec.ofNat_toNat 16 nnn).symm

theorem offsetTarget_eq_ofNat (s : State) (nnn : Addr12) (r : Reg) :
    offsetTarget s nnn r = BitVec.ofNat 16 (nnn.toNat + (s.getV r).toNat) := by
  rw [← toNat_offsetTarget, BitVec.ofNat_toNat, BitVec.setWidth_eq]

/-- The condition of EX9E and EXA1, which names the key by the value of VX, in terms of that key (R112, R113). -/
theorem exists_key_iff {s : State} {x : Reg} {k : Key} (h : (s.getV x).toNat = k.val) (b : Bool) :
    (∃ j : Key, j.val = (s.getV x).toNat ∧ s.key[j] = b) ↔ s.key[k] = b := by
  constructor
  · rintro ⟨j, hj, hb⟩
    rwa [Fin.ext (hj.trans h)] at hb
  · exact fun hb => ⟨k, h.symm, hb⟩

/-- Settles O13: of the branches of `step_effect` two raise no fault. There an instruction that names pc gives its line of
R22, every other one and an unrecognized word the default. -/
theorem pcAfterStep : Obligations.PcAfterStep := by
  unfold Obligations.PcAfterStep
  intro s t hs hstep ht
  obtain ⟨-, ⟨hhalt, -⟩ | ⟨-, -, rfl⟩ | ⟨i, ⟨-, -, -, hdec⟩, hc, -⟩ | ⟨i, c, info, -, -, hne, rfl⟩ |
    ⟨-, -, ⟨e, hdec⟩, -, rfl⟩ | ⟨-, -, -, -, rfl⟩⟩ := step_effect hstep
  · exact absurd hs hhalt
  · cases ht
  · rw [hdec]
    cases i with
    | seImm x nn => cases hc; simp only [pc_skipIf_fetched, getV_fetched, beq_iff_eq]
    | sneImm x nn => cases hc; simp only [pc_skipIf_fetched, getV_fetched, bne_iff_ne]
    | seReg x y => cases hc; simp only [pc_skipIf_fetched, getV_fetched, beq_iff_eq]
    | sneReg x y => cases hc; simp only [pc_skipIf_fetched, getV_fetched, bne_iff_ne]
    | skp x =>
      obtain ⟨k, hk, rfl⟩ := hc
      rw [getV_fetched] at hk
      simp only [pc_skipIf_fetched, State.fetched_key, exists_key_iff hk]
    | sknp x =>
      obtain ⟨k, hk, rfl⟩ := hc
      rw [getV_fetched] at hk
      simp only [pc_skipIf_fetched, State.fetched_key, exists_key_iff hk, Bool.not_eq_true']
    | jp nnn => cases hc; exact zextAddr_eq_ofNat nnn
    | call nnn => obtain ⟨-, rfl⟩ := hc; exact zextAddr_eq_ofNat nnn
    | ret =>
      obtain ⟨st, a, hst, rfl⟩ := hc
      rw [State.fetched_stack] at hst
      simp only [hst, List.getLastD_concat]
    | jpV0 nnn => cases hc; exact offsetTarget_eq_ofNat _ nnn 0
    | jpVx x nnn => cases hc; exact offsetTarget_eq_ofNat _ nnn x
    | ldVxK x =>
      rcases hc with ⟨k, hk, -, rfl⟩ | ⟨hnone, rfl⟩
      · exact (if_neg fun hnone => Bool.eq_false_iff.1 (hnone k) hk).symm
      · simp only [State.setPc_pc, State.fetched_pc, BitVec.add_sub_cancel]
        exact (if_pos hnone).symm
    | _ => exact pc_eq_of_setsPc_eq_false hc rfl
  · exact absurd ht hne
  · rw [hdec]; rfl
  · cases ht

end Sys2Proof.Proofs.StateBlock
end

section
/-! The statements of 20_memory.md: the fetch of a word (R48, R49) and Load (R56). -/

namespace Sys2Proof.Proofs.FetchAndLoad

open Sys2Proof Sys2Proof.Machine

/-! ### Fetch (R48, R49) -/

/-- Big-endian: the first byte of a word is the high one (R48). -/
theorem toNat_wordOfBytes (hi lo : Byte) : (wordOfBytes hi lo).toNat = hi.toNat * 256 + lo.toNat := by
  calc (wordOfBytes hi lo).toNat = hi.toNat <<< 8 ||| lo.toNat := BitVec.toNat_append hi lo
    _ = hi.toNat <<< 8 + lo.toNat := (Nat.shiftLeft_add_eq_or_of_lt lo.isLt _).symm
    _ = hi.toNat * 256 + lo.toNat := by rw [Nat.shiftLeft_eq]

/-- Of the two addresses of a word that reaches past memory, the first one outside (R49): the second at 0x0FFF, the first
from 0x1000 on. -/
theorem firstOutside_of_gt {a : Nat} (h : a + 1 > 0x0FFF) : firstOutside a = if a ≤ 0x0FFF then a + 1 else a := by
  simp only [firstOutside, memSize]
  split <;> omega

/-- Settles O9: outside memory by `step_of_fetch_fault`, inside by the value of a big-endian word. -/
theorem fetchReadsOrFaults : Obligations.FetchReadsOrFaults := by
  unfold Obligations.FetchReadsOrFaults
  refine fun s => ⟨fun hl hf hpc => ?_, fun hpc => ⟨canFetch_iff.2 hpc, toNat_wordOfBytes _ _⟩⟩
  have hc : s.canFetch = false := Bool.eq_false_iff.2 fun hc => absurd (canFetch_iff.1 hc) (Nat.not_le.2 hpc)
  rw [step_of_fetch_fault hl hf hc, State.raiseFetch, firstOutside_of_gt hpc]

/-! ### Load (R56) -/

theorem load_of_gt {s : State} {image : List Byte} (h : image.length > 3584) : s.load (.bytes image) = (false, s) :=
  if_pos h

theorem load_of_le {s : State} {image : List Byte} (h : image.length ≤ 3584) :
    s.load (.bytes image) = (true, { s with mem := s.mem.writeList loadBase image, loaded := true }) :=
  if_neg (Nat.not_lt.2 h)

/-- Settles O55: an image that fits ends at or below 4096, so `Memory.read_writeList` says what each address holds. -/
theorem loadCopiesOrFails : Obligations.LoadCopiesOrFails := by
  unfold Obligations.LoadCopiesOrFails
  refine fun s hwf => ⟨rfl, fun _ => load_of_gt, fun image hlen => ⟨_, load_of_le hlen, rfl, rfl, ?_⟩⟩
  have hfit : loadBase + image.length ≤ memSize := by simp only [loadBase, memSize]; omega
  refine ⟨fun k hk => ?_, fun a ha => ?_⟩
  · rw [Memory.read_writeList hwf hfit, dif_pos (by simp only [loadBase]; omega)]
    simp only [loadBase, Nat.add_sub_cancel_left]
  · rw [Memory.read_writeList hwf hfit, dif_neg ha]

end Sys2Proof.Proofs.FetchAndLoad
end

section
/-! The statements of 30_encoding.md: the fields of a word (R60), the rows of the opcode map (R64 to R68) and the two decode
modes (R62, R63). -/

namespace Sys2Proof.Proofs.Encoding

open Sys2Proof

variable {mode : DecodeMode} {j : Bool} {w : Word}

/-! ### The fields by value (R60) -/

theorem toNat_fieldF (w : Word) : (fieldF w).toNat = w.toNat / 4096 := by
  rw [fieldF, BitVec.extractLsb'_toNat, Nat.shiftRight_eq_div_pow]
  omega

theorem val_fieldX (w : Word) : (fieldX w).val = w.toNat / 256 % 16 := by
  rw [fieldX, BitVec.val_toFin, BitVec.extractLsb'_toNat, Nat.shiftRight_eq_div_pow]

theorem val_fieldY (w : Word) : (fieldY w).val = w.toNat / 16 % 16 := by
  rw [fieldY, BitVec.val_toFin, BitVec.extractLsb'_toNat, Nat.shiftRight_eq_div_pow]

theorem toNat_fieldN (w : Word) : (fieldN w).toNat = w.toNat % 16 := BitVec.extractLsb'_toNat ..

theorem toNat_fieldNN (w : Word) : (fieldNN w).toNat = w.toNat % 256 := BitVec.extractLsb'_toNat ..

theorem toNat_fieldNNN (w : Word) : (fieldNNN w).toNat = w.toNat % 4096 := BitVec.extractLsb'_toNat ..

/-- Settles O20, a field at a time. -/
theorem fieldsAreBits : Obligations.FieldsAreBits := by
  unfold Obligations.FieldsAreBits
  exact fun w => ⟨toNat_fieldF w, val_fieldX w, val_fieldY w, toNat_fieldN w, toNat_fieldNN w, toNat_fieldNNN w⟩

/-! ### The fields a mask fixes (R64)

A row's match is the word of its fixed fields with every other field 0. -/

theorem fieldF_of_and_F000 {f : Nibble} (h : w &&& 0xF000 = wordNNN f 0) : fieldF w = f := by
  rw [eq_wordNNN w, wordNNN_and_F000] at h
  simpa only [fieldF_wordNNN] using congrArg fieldF h

theorem fields_of_and_F00F {f n : Nibble} (h : w &&& 0xF00F = wordXYN f 0 0 n) : fieldF w = f ∧ fieldN w = n := by
  rw [eq_wordXYN w, wordXYN_and_F00F] at h
  exact ⟨by simpa only [fieldF_wordXYN] using congrArg fieldF h, by simpa only [fieldN_wordXYN] using congrArg fieldN h⟩

theorem fields_of_and_F0FF {f : Nibble} {nn : Byte} (h : w &&& 0xF0FF = wordXNN f 0 nn) :
    fieldF w = f ∧ fieldNN w = nn := by
  rw [eq_wordXNN w, wordXNN_and_F0FF] at h
  exact ⟨by simpa only [fieldF_wordXNN] using congrArg fieldF h, by simpa only [fieldNN_wordXNN] using congrArg fieldNN h⟩

/-! ### The decoder by family (R62) -/

theorem decodeWord_family0 (h : fieldF w = 0x0) : decodeWord mode j w = decodeFamily0 mode w := by
  rw [decodeWord, h]; rfl

theorem decodeWord_family1 (h : fieldF w = 0x1) : decodeWord mode j w = .ok (.jp (fieldNNN w)) := by
  rw [decodeWord, h]; rfl

theorem decodeWord_family2 (h : fieldF w = 0x2) : decodeWord mode j w = .ok (.call (fieldNNN w)) := by
  rw [decodeWord, h]; rfl

theorem decodeWord_family3 (h : fieldF w = 0x3) : decodeWord mode j w = .ok (.seImm (fieldX w) (fieldNN w)) := by
  rw [decodeWord, h]; rfl

theorem decodeWord_family4 (h : fieldF w = 0x4) : decodeWord mode j w = .ok (.sneImm (fieldX w) (fieldNN w)) := by
  rw [decodeWord, h]; rfl

theorem decodeWord_family5 (h : fieldF w = 0x5) :
    decodeWord mode j w = decodeXY0 mode w (.seReg (fieldX w) (fieldY w)) .family5 := by
  rw [decodeWord, h]; rfl

theorem decodeWord_family6 (h : fieldF w = 0x6) : decodeWord mode j w = .ok (.ldImm (fieldX w) (fieldNN w)) := by
  rw [decodeWord, h]; rfl

theorem decodeWord_family7 (h : fieldF w = 0x7) : decodeWord mode j w = .ok (.addImm (fieldX w) (fieldNN w)) := by
  rw [decodeWord, h]; rfl

theorem decodeWord_family8 (h : fieldF w = 0x8) : decodeWord mode j w = decodeFamily8 w := by
  rw [decodeWord, h]; rfl

theorem decodeWord_family9 (h : fieldF w = 0x9) :
    decodeWord mode j w = decodeXY0 mode w (.sneReg (fieldX w) (fieldY w)) .family9 := by
  rw [decodeWord, h]; rfl

theorem decodeWord_familyA (h : fieldF w = 0xA) : decodeWord mode j w = .ok (.ldI (fieldNNN w)) := by
  rw [decodeWord, h]; rfl

theorem decodeWord_familyB (h : fieldF w = 0xB) : decodeWord mode j w = .ok (decodeFamilyB j w) := by
  rw [decodeWord, h]; rfl

theorem decodeWord_familyC (h : fieldF w = 0xC) : decodeWord mode j w = .ok (.rnd (fieldX w) (fieldNN w)) := by
  rw [decodeWord, h]; rfl

theorem decodeWord_familyD (h : fieldF w = 0xD) : decodeWord mode j w = .ok (.drw (fieldX w) (fieldY w) (fieldN w)) := by
  rw [decodeWord, h]; rfl

theorem decodeWord_familyE (h : fieldF w = 0xE) : decodeWord mode j w = decodeFamilyE w := by
  rw [decodeWord, h]; rfl

theorem decodeWord_familyF (h : fieldF w = 0xF) : decodeWord mode j w = decodeFamilyF w := by
  rw [decodeWord, h]; rfl

/-! ### Families 0, 5 and 9, where the modes differ (R63, R65) -/

theorem decodeFamily0_loose_cls (h : fieldN w = 0x0) : decodeFamily0 .loose w = .ok .cls := if_pos h

theorem decodeFamily0_loose_ret (h : fieldN w = 0xE) : decodeFamily0 .loose w = .ok .ret := by
  rw [decodeFamily0, h]; rfl

/-- A low nibble that names no row names none in strict mode either: 00E0 and 00EE end in 0 and E. -/
theorem decodeFamily0_reject (h0 : fieldN w ≠ 0x0) (hE : fieldN w ≠ 0xE) :
    decodeFamily0 mode w = .error .family0 := by
  cases mode with
  | loose => rw [decodeFamily0, if_neg h0, if_neg hE]
  | strict =>
    have hcls : w ≠ 0x00E0 := by rintro rfl; exact h0 rfl
    have hret : w ≠ 0x00EE := by rintro rfl; exact hE rfl
    rw [decodeFamily0, if_neg hcls, if_neg hret]

theorem decodeFamily0_strict_reject (hcls : w ≠ 0x00E0) (hret : w ≠ 0x00EE) :
    decodeFamily0 .strict w = .error .family0 := by
  rw [decodeFamily0, if_neg hcls, if_neg hret]

variable {i : Instr} {why : DecodeReject}

theorem decodeXY0_of_fieldN (h : fieldN w = 0x0) : decodeXY0 mode w i why = .ok i := by
  cases mode with
  | loose => rfl
  | strict => exact if_pos h

theorem decodeXY0_strict_reject (h : fieldN w ≠ 0x0) : decodeXY0 .strict w i why = .error why := if_neg h

/-! ### Family 8 (R66) -/

theorem decodeFamily8_ldReg (h : fieldN w = 0x0) : decodeFamily8 w = .ok (.ldReg (fieldX w) (fieldY w)) := by
  rw [decodeFamily8, h]; rfl

theorem decodeFamily8_orReg (h : fieldN w = 0x1) : decodeFamily8 w = .ok (.orReg (fieldX w) (fieldY w)) := by
  rw [decodeFamily8, h]; rfl

theorem decodeFamily8_andReg (h : fieldN w = 0x2) : decodeFamily8 w = .ok (.andReg (fieldX w) (fieldY w)) := by
  rw [decodeFamily8, h]; rfl

theorem decodeFamily8_xorReg (h : fieldN w = 0x3) : decodeFamily8 w = .ok (.xorReg (fieldX w) (fieldY w)) := by
  rw [decodeFamily8, h]; rfl

theorem decodeFamily8_addReg (h : fieldN w = 0x4) : decodeFamily8 w = .ok (.addReg (fieldX w) (fieldY w)) := by
  rw [decodeFamily8, h]; rfl

theorem decodeFamily8_sub (h : fieldN w = 0x5) : decodeFamily8 w = .ok (.sub (fieldX w) (fieldY w)) := by
  rw [decodeFamily8, h]; rfl

theorem decodeFamily8_shr (h : fieldN w = 0x6) : decodeFamily8 w = .ok (.shr (fieldX w) (fieldY w)) := by
  rw [decodeFamily8, h]; rfl

theorem decodeFamily8_subn (h : fieldN w = 0x7) : decodeFamily8 w = .ok (.subn (fieldX w) (fieldY w)) := by
  rw [decodeFamily8, h]; rfl

theorem decodeFamily8_shl (h : fieldN w = 0xE) : decodeFamily8 w = .ok (.shl (fieldX w) (fieldY w)) := by
  rw [decodeFamily8, h]; rfl

theorem decodeFamily8_reject (h : fieldN w ∈ ([0x8, 0x9, 0xA, 0xB, 0xC, 0xD, 0xF] : List Nibble)) :
    decodeFamily8 w = .error .family8 := by
  simp only [List.mem_cons, List.not_mem_nil, or_false] at h
  rw [decodeFamily8]
  rcases h with h | h | h | h | h | h | h <;> rw [h] <;> rfl

/-! ### Families E and F (R67, R68) -/

theorem decodeFamilyE_skp (h : fieldNN w = 0x9E) : decodeFamilyE w = .ok (.skp (fieldX w)) := by
  rw [decodeFamilyE, h]; rfl

theorem decodeFamilyE_sknp (h : fieldNN w = 0xA1) : decodeFamilyE w = .ok (.sknp (fieldX w)) := by
  rw [decodeFamilyE, h]; rfl

theorem decodeFamilyE_reject (h9E : fieldNN w ≠ 0x9E) (hA1 : fieldNN w ≠ 0xA1) :
    decodeFamilyE w = .error .familyE := by
  rw [decodeFamilyE, if_neg h9E, if_neg hA1]

theorem decodeFamilyF_ldVxDt (h : fieldNN w = 0x07) : decodeFamilyF w = .ok (.ldVxDt (fieldX w)) := by
  rw [decodeFamilyF, h]; rfl

theorem decodeFamilyF_ldVxK (h : fieldNN w = 0x0A) : decodeFamilyF w = .ok (.ldVxK (fieldX w)) := by
  rw [decodeFamilyF, h]; rfl

theorem decodeFamilyF_ldDtVx (h : fieldNN w = 0x15) : decodeFamilyF w = .ok (.ldDtVx (fieldX w)) := by
  rw [decodeFamilyF, h]; rfl

theorem decodeFamilyF_ldStVx (h : fieldNN w = 0x18) : decodeFamilyF w = .ok (.ldStVx (fieldX w)) := by
  rw [decodeFamilyF, h]; rfl

theorem decodeFamilyF_addIVx (h : fieldNN w = 0x1E) : decodeFamilyF w = .ok (.addIVx (fieldX w)) := by
  rw [decodeFamilyF, h]; rfl

theorem decodeFamilyF_ldFVx (h : fieldNN w = 0x29) : decodeFamilyF w = .ok (.ldFVx (fieldX w)) := by
  rw [decodeFamilyF, h]; rfl

theorem decodeFamilyF_ldBVx (h : fieldNN w = 0x33) : decodeFamilyF w = .ok (.ldBVx (fieldX w)) := by
  rw [decodeFamilyF, h]; rfl

theorem decodeFamilyF_ldMemVx (h : fieldNN w = 0x55) : decodeFamilyF w = .ok (.ldMemVx (fieldX w)) := by
  rw [decodeFamilyF, h]; rfl

theorem decodeFamilyF_ldVxMem (h : fieldNN w = 0x65) : decodeFamilyF w = .ok (.ldVxMem (fieldX w)) := by
  rw [decodeFamilyF, h]; rfl

theorem decodeFamilyF_reject
    (h : fieldNN w ∉ ([0x07, 0x0A, 0x15, 0x18, 0x1E, 0x29, 0x33, 0x55, 0x65] : List Byte)) :
    decodeFamilyF w = .error .familyF := by
  simp only [List.mem_cons, List.not_mem_nil, or_false, not_or] at h
  obtain ⟨h07, h0A, h15, h18, h1E, h29, h33, h55, h65⟩ := h
  rw [decodeFamilyF, if_neg h07, if_neg h0A, if_neg h15, if_neg h18, if_neg h1E, if_neg h29, if_neg h33, if_neg h55,
    if_neg h65]

/-! ### The rows of the opcode map (R64) -/

theorem decodeWord_of_maskF00F {f n : Nibble} {d : Except DecodeReject Instr}
    (hF : fieldF w = f → decodeWord mode j w = d) (hN : fieldN w = n → d = .ok i) (h : w &&& 0xF00F = wordXYN f 0 0 n) :
    decodeWord mode j w = .ok i :=
  (hF (fields_of_and_F00F h).1).trans (hN (fields_of_and_F00F h).2)

theorem decodeWord_of_maskF0FF {f : Nibble} {nn : Byte} {d : Except DecodeReject Instr}
    (hF : fieldF w = f → decodeWord mode j w = d) (hNN : fieldNN w = nn → d = .ok i)
    (h : w &&& 0xF0FF = wordXNN f 0 nn) : decodeWord mode j w = .ok i :=
  (hF (fields_of_and_F0FF h).1).trans (hNN (fields_of_and_F0FF h).2)

/-- Settles O23: a row's mask fixes the fields that its family's lemma asks for. -/
theorem rowsDecode : Obligations.RowsDecode := by
  unfold Obligations.RowsDecode
  intro mode j w
  exact ⟨
    decodeWord_of_maskF00F decodeWord_family0 decodeFamily0_loose_cls,
    fun h => by rw [h]; rfl,
    decodeWord_of_maskF00F decodeWord_family0 decodeFamily0_loose_ret,
    fun h => by rw [h]; rfl,
    fun h => decodeWord_family1 (fieldF_of_and_F000 h),
    fun h => decodeWord_family2 (fieldF_of_and_F000 h),
    fun h => decodeWord_family3 (fieldF_of_and_F000 h),
    fun h => decodeWord_family4 (fieldF_of_and_F000 h),
    fun h => decodeWord_family5 (fieldF_of_and_F000 h),
    decodeWord_of_maskF00F decodeWord_family5 decodeXY0_of_fieldN,
    fun h => decodeWord_family6 (fieldF_of_and_F000 h),
    fun h => decodeWord_family7 (fieldF_of_and_F000 h),
    decodeWord_of_maskF00F decodeWord_family8 decodeFamily8_ldReg,
    decodeWord_of_maskF00F decodeWord_family8 decodeFamily8_orReg,
    decodeWord_of_maskF00F decodeWord_family8 decodeFamily8_andReg,
    decodeWord_of_maskF00F decodeWord_family8 decodeFamily8_xorReg,
    decodeWord_of_maskF00F decodeWord_family8 decodeFamily8_addReg,
    decodeWord_of_maskF00F decodeWord_family8 decodeFamily8_sub,
    decodeWord_of_maskF00F decodeWord_family8 decodeFamily8_shr,
    decodeWord_of_maskF00F decodeWord_family8 decodeFamily8_subn,
    decodeWord_of_maskF00F decodeWord_family8 decodeFamily8_shl,
    fun h => decodeWord_family9 (fieldF_of_and_F000 h),
    decodeWord_of_maskF00F decodeWord_family9 decodeXY0_of_fieldN,
    fun h => decodeWord_familyA (fieldF_of_and_F000 h),
    fun h => decodeWord_familyB (fieldF_of_and_F000 h),
    fun h => decodeWord_familyB (fieldF_of_and_F000 h),
    fun h => decodeWord_familyC (fieldF_of_and_F000 h),
    fun h => decodeWord_familyD (fieldF_of_and_F000 h),
    decodeWord_of_maskF0FF decodeWord_familyE decodeFamilyE_skp,
    decodeWord_of_maskF0FF decodeWord_familyE decodeFamilyE_sknp,
    decodeWord_of_maskF0FF decodeWord_familyF decodeFamilyF_ldVxDt,
    decodeWord_of_maskF0FF decodeWord_familyF decodeFamilyF_ldVxK,
    decodeWord_of_maskF0FF decodeWord_familyF decodeFamilyF_ldDtVx,
    decodeWord_of_maskF0FF decodeWord_familyF decodeFamilyF_ldStVx,
    decodeWord_of_maskF0FF decodeWord_familyF decodeFamilyF_addIVx,
    decodeWord_of_maskF0FF decodeWord_familyF decodeFamilyF_ldFVx,
    decodeWord_of_maskF0FF decodeWord_familyF decodeFamilyF_ldBVx,
    decodeWord_of_maskF0FF decodeWord_familyF decodeFamilyF_ldMemVx,
    decodeWord_of_maskF0FF decodeWord_familyF decodeFamilyF_ldVxMem,
    fun hF h0 hE => (decodeWord_family0 hF).trans (decodeFamily0_reject h0 hE),
    fun hF hN => (decodeWord_family8 hF).trans (decodeFamily8_reject hN),
    fun hF h9E hA1 => (decodeWord_familyE hF).trans (decodeFamilyE_reject h9E hA1),
    fun hF hNN => (decodeWord_familyF hF).trans (decodeFamilyF_reject hNN)⟩

/-! ### Strict mode against loose mode (R63) -/

/-- R63's list of the words on which the modes differ, by the fields of the word. -/
def ModesDiffer (w : Word) : Prop :=
  (fieldF w = 0x0 ∧ ((fieldN w = 0x0 ∧ w ≠ 0x00E0) ∨ (fieldN w = 0xE ∧ w ≠ 0x00EE))) ∨
    ((fieldF w = 0x5 ∨ fieldF w = 0x9) ∧ fieldN w ≠ 0x0)

theorem modesDiffer_iff (w : Word) : ModesDiffer w ↔
    (w.toNat / 4096 = 0 ∧ ((w.toNat % 16 = 0 ∧ w ≠ 0x00E0) ∨ (w.toNat % 16 = 0xE ∧ w ≠ 0x00EE))) ∨
      ((w.toNat / 4096 = 5 ∨ w.toNat / 4096 = 9) ∧ w.toNat % 16 ≠ 0) := by
  simp only [ModesDiffer, ← BitVec.toNat_inj (x := fieldF w), ← BitVec.toNat_inj (x := fieldN w), ne_eq, toNat_fieldF,
    toNat_fieldN]
  rfl

/-- On R63's list strict mode rejects what loose mode decodes. -/
theorem decodeWord_of_modesDiffer (j : Bool) (h : ModesDiffer w) :
    (∃ e, decodeWord .strict j w = .error e) ∧ ∃ i, decodeWord .loose j w = .ok i := by
  rcases h with ⟨hF, ⟨hN, hw⟩ | ⟨hN, hw⟩⟩ | ⟨hF | hF, hN⟩
  · have hret : w ≠ 0x00EE := by rintro rfl; cases hN
    rw [decodeWord_family0 hF, decodeWord_family0 hF]
    exact ⟨⟨_, decodeFamily0_strict_reject hw hret⟩, _, decodeFamily0_loose_cls hN⟩
  · have hcls : w ≠ 0x00E0 := by rintro rfl; cases hN
    rw [decodeWord_family0 hF, decodeWord_family0 hF]
    exact ⟨⟨_, decodeFamily0_strict_reject hcls hw⟩, _, decodeFamily0_loose_ret hN⟩
  · rw [decodeWord_family5 hF, decodeWord_family5 hF]
    exact ⟨⟨_, decodeXY0_strict_reject hN⟩, _, rfl⟩
  · rw [decodeWord_family9 hF, decodeWord_family9 hF]
    exact ⟨⟨_, decodeXY0_strict_reject hN⟩, _, rfl⟩

/-- Only families 0, 5 and 9 read the mode. -/
theorem decodeWord_mode_irrelevant (h0 : fieldF w ≠ 0x0) (h5 : fieldF w ≠ 0x5) (h9 : fieldF w ≠ 0x9) :
    decodeWord .strict j w = decodeWord .loose j w := by
  rw [decodeWord, decodeWord]
  split
  case h_1 h => exact absurd (BitVec.eq_of_toNat_eq h) h0
  case h_6 h => exact absurd (BitVec.eq_of_toNat_eq h) h5
  case h_10 h => exact absurd (BitVec.eq_of_toNat_eq h) h9
  all_goals rfl

/-- In family 0 the words off R63's list are 00E0, 00EE and those with another low nibble. -/
theorem decodeFamily0_strict_eq_loose (hcls : fieldN w = 0x0 → w = 0x00E0) (hret : fieldN w = 0xE → w = 0x00EE) :
    decodeFamily0 .strict w = decodeFamily0 .loose w := by
  by_cases h0 : fieldN w = 0x0
  · rw [hcls h0]; rfl
  by_cases hE : fieldN w = 0xE
  · rw [hret hE]; rfl
  rw [decodeFamily0_reject h0 hE, decodeFamily0_reject h0 hE]

/-- Off R63's list the modes agree. -/
theorem decodeWord_strict_eq_loose (j : Bool) (h : ¬ ModesDiffer w) :
    decodeWord .strict j w = decodeWord .loose j w := by
  simp only [ModesDiffer, not_or, not_and, not_not] at h
  obtain ⟨h0, h59⟩ := h
  by_cases hF0 : fieldF w = 0x0
  · obtain ⟨hcls, hret⟩ := h0 hF0
    rw [decodeWord_family0 hF0, decodeWord_family0 hF0, decodeFamily0_strict_eq_loose hcls hret]
  by_cases hF5 : fieldF w = 0x5
  · rw [decodeWord_family5 hF5, decodeWord_family5 hF5, decodeXY0_of_fieldN (h59 (.inl hF5)),
      decodeXY0_of_fieldN (h59 (.inl hF5))]
  by_cases hF9 : fieldF w = 0x9
  · rw [decodeWord_family9 hF9, decodeWord_family9 hF9, decodeXY0_of_fieldN (h59 (.inr hF9)),
      decodeXY0_of_fieldN (h59 (.inr hF9))]
  exact decodeWord_mode_irrelevant hF0 hF5 hF9

/-- Settles O25: on R63's list strict mode rejects and loose mode decodes, off it they agree. -/
theorem decodeModesDiffer : Obligations.DecodeModesDiffer := by
  unfold Obligations.DecodeModesDiffer
  intro j w
  rw [← modesDiffer_iff]
  by_cases h : ModesDiffer w
  · obtain ⟨⟨e, hs⟩, i, hl⟩ := decodeWord_of_modesDiffer j h
    rw [hs, hl]
    exact ⟨fun _ => nofun, iff_of_true nofun h⟩
  · rw [decodeWord_strict_eq_loose j h]
    exact ⟨fun _ => id, iff_of_false (not_not_intro rfl) h⟩

end Sys2Proof.Proofs.Encoding
end

section
/-! The statements of 40_cycle.md: the three phases of a step (R74 to R76), precise faults (R77) and unrecognized words
(R78). -/

namespace Sys2Proof.Proofs.Cycle

open Sys2Proof Sys2Proof.Machine Sys2Proof.Safety

variable {s t : State} {i : Instr}

/-- Settles O6: `exec` answers a next state, which `State.commit` keeps or discards. -/
theorem stepRunsDecoded : Obligations.StepRunsDecoded := by
  unfold Obligations.StepRunsDecoded
  rintro s i ⟨hl, hf, hc, hd⟩
  obtain ⟨t, ht⟩ := exec_next i (s.fetched (isDraw i))
  exact ⟨t, ht, step_of_decoded hl hf hc hd ht⟩

/-! ### Unrecognized words (R78) -/

theorem execUnrecognized_of_nop (h : s.cfg.unknownOp = .nop) :
    execUnrecognized s = .next { s with unkSeen := true, unkLast := s.opcode } := by
  simp only [execUnrecognized, h]

theorem execUnrecognized_of_fault (h : s.cfg.unknownOp = .fault) :
    execUnrecognized s = .next (s.raise .unknownOpcode none) := by
  simp only [execUnrecognized, h]

/-- A fault of the execute phase is recorded at the address of the instruction, which pc is past (R74, R77). -/
theorem commit_raise_fetched {c : FaultCode} (hc : c ≠ .noFault) (d : Bool) (info : Option Nat) :
    s.commit ((s.fetched d).raise c info) = faulted s c info := by
  rw [State.commit_of_fault hc, State.raise_fault, State.fetched_pc, State.fetched_opcode, BitVec.add_sub_cancel,
    faulted]

/-- Settles O10: what R78 does under each policy, then the end of the step. -/
theorem unrecognizedWord : Obligations.UnrecognizedWord := by
  unfold Obligations.UnrecognizedWord
  refine fun s e hl hf hc hd => ⟨fun hn => ?_, fun hn => ?_⟩
  · rw [step_of_unrecognized hl hf hc hd (execUnrecognized_of_nop hn), State.commit_of_noFault (by exact hf)]
    rfl
  · rw [step_of_unrecognized hl hf hc hd (execUnrecognized_of_fault hn),
      commit_raise_fetched (c := .unknownOpcode) nofun]

/-! ### Precise faults (R77) -/

/-- Whether a step is kept or discarded, its record is that of the execute phase. -/
theorem fault_commit (s t : State) : (s.commit t).fault = t.fault := by
  rw [State.commit]
  split <;> rfl

theorem fault_eq_of_exec {u : State} (hr : Runs s i) (he : exec i (s.fetched (isDraw i)) = .next u)
    (h : step s = .next t) : t.fault = u.fault := by
  obtain ⟨hl, hf, hc, hd⟩ := hr
  cases h.symm.trans (step_of_decoded hl hf hc hd he)
  exact fault_commit s u

/-- No instruction raises the fault of the fetch phase. -/
theorem ne_fetchOutOfRange_of_raises {c : FaultCode} {info : Option Nat} (h : Raises i s c info) :
    c ≠ .fetchOutOfRange := by
  cases i with
  | ret | call | ldBVx | ldMemVx | ldVxMem | skp | sknp => obtain ⟨-, rfl, -⟩ := h; nofun
  | drw => obtain ⟨-, -, rfl, -⟩ := h; nofun
  | _ => exact False.elim h

/-- A step that changes the fault record faulted in its fetch, or in its execute phase with another code. -/
theorem raiseFetch_or_faulted (h : step s = .next t) (hne : t.fault ≠ s.fault) : s.fault.code = .noFault ∧
    (t = s.raiseFetch ∨ ∃ c info, c ≠ .noFault ∧ c ≠ .fetchOutOfRange ∧ t = faulted s c info) := by
  obtain ⟨-, ⟨-, rfl⟩ | ⟨hf, -, rfl⟩ | ⟨i, -, -, heq⟩ | ⟨i, c, info, ⟨-, hf, -, -⟩, hr, hc, rfl⟩ |
    ⟨-, -, -, -, rfl⟩ | ⟨hf, -, -, -, rfl⟩⟩ := step_effect h
  · exact absurd rfl hne
  · exact ⟨hf, .inl rfl⟩
  · exact absurd heq hne
  · exact ⟨hf, .inr ⟨c, info, hc, ne_fetchOutOfRange_of_raises hr, rfl⟩⟩
  · exact absurd rfl hne
  · exact ⟨hf, .inr ⟨.unknownOpcode, none, nofun, nofun, rfl⟩⟩

/-- Settles O11: the record by the phase that faulted, its agreement with the execute phase by `fault_eq_of_exec`. -/
theorem faultsArePrecise : Obligations.FaultsArePrecise := by
  unfold Obligations.FaultsArePrecise
  intro s t h hne
  have hexec : ∀ i u, Runs s i → exec i (s.fetched (isDraw i)) = .next u → t.fault = u.fault :=
    fun i u hr he => fault_eq_of_exec hr he h
  obtain ⟨hf, rfl | ⟨c, info, hc, hcf, rfl⟩⟩ := raiseFetch_or_faulted h hne
  · exact ⟨rfl, hf, nofun, rfl, rfl, hexec⟩
  · exact ⟨rfl, hf, hc, rfl, (if_neg hcf).symm, hexec⟩

end Sys2Proof.Proofs.Cycle
end

section
/-! The statements of 41_flow.md: RET and CALL (R81, R83), the jumps (R82, R88, R89) and the register skips (R84 to R87). -/

namespace Sys2Proof.Proofs.Flow

open Sys2Proof Sys2Proof.Machine Sys2Proof.Safety

/-! ### RET and CALL (R81, R83) -/

/-- Settles O27: a stack with a top pops it, an empty one raises the fault that ends the step. -/
theorem retPopsOrFaults : Obligations.RetPopsOrFaults := by
  unfold Obligations.RetPopsOrFaults
  refine ⟨fun s st a h => exec_ret_of_append s h, fun s hr h => ?_⟩
  have hstack : (s.fetched (isDraw .ret)).stack = [] := h
  exact step_of_raise hr nofun (exec_ret_of_nil _ hstack)

/-- Settles O28: a stack with room takes the return address, a full one raises the fault that ends the step. -/
theorem callPushesOrFaults : Obligations.CallPushesOrFaults := by
  unfold Obligations.CallPushesOrFaults
  refine ⟨fun s nnn h => ?_, fun s nnn hr h => ?_⟩
  · rw [exec_call_of_lt s nnn h, StateBlock.zextAddr_eq_ofNat]
  · have hfull : 16 ≤ (s.fetched (isDraw (.call nnn))).stack.length := h.ge
    exact step_of_raise hr nofun (exec_call_of_ge _ nnn hfull)

/-! ### Jumps (R82, R88, R89) -/

theorem onlyPc_setPc (s : State) (a : Word) : OnlyPc s (s.setPc a) := rfl

/-- Settles O30: each jump is a write of pc, and neither zero extension nor the sum with a register is reduced. -/
theorem jumpTargets : Obligations.JumpTargets := by
  unfold Obligations.JumpTargets
  refine fun s nnn x => ⟨?_, ?_, ?_⟩
  · exact ⟨s.setPc (zextAddr nnn), rfl, toNat_zextAddr nnn, onlyPc_setPc s _⟩
  · exact ⟨s.setPc (offsetTarget s nnn 0), rfl, toNat_offsetTarget s nnn 0, onlyPc_setPc s _⟩
  · exact ⟨s.setPc (offsetTarget s nnn x), rfl, toNat_offsetTarget s nnn x, onlyPc_setPc s _⟩

/-! ### Register skips (R84 to R87) -/

/-- A skip on a Boolean test, by the proposition that it decides. -/
theorem skipIf_eq_of_iff {c : Bool} {p : Prop} [Decidable p] (h : c = true ↔ p) (s : State) :
    s.skipIf c = { s with pc := if p then s.pc + 2 else s.pc } := by
  simp only [State.skipIf_eq, h]

/-- Settles O31: each of the four is a conditional skip, whose Boolean test decides equality or its negation. -/
theorem skipsOnCondition : Obligations.SkipsOnCondition := by
  unfold Obligations.SkipsOnCondition
  refine fun s x y nn => ⟨?_, ?_, ?_, ?_⟩
  · exact congrArg Host.Outcome.next (skipIf_eq_of_iff beq_iff_eq s)
  · exact congrArg Host.Outcome.next (skipIf_eq_of_iff bne_iff_ne s)
  · exact congrArg Host.Outcome.next (skipIf_eq_of_iff beq_iff_eq s)
  · exact congrArg Host.Outcome.next (skipIf_eq_of_iff bne_iff_ne s)

end Sys2Proof.Proofs.Flow
end

section
/-! The statements of 42_alu.md: the loads and the immediate addition (R91 to R93), the logical operations (R94 to R96), the
addition with carry (R97) and the shifts (R99, R101). -/

namespace Sys2Proof.Proofs.Alu

open Sys2Proof Sys2Proof.Machine Sys2Proof.Safety

/-! ### Writing one register -/

theorem onlyV_setV (s : State) (x : Reg) (b : Byte) : OnlyV s (s.setV x b) := rfl

theorem getV_setV_same (s : State) (x : Reg) (b : Byte) : (s.setV x b).getV x = b := by
  rw [State.getV_setV, if_pos rfl]

theorem getV_setV_of_ne (s : State) {x r : Reg} (b : Byte) (h : r ≠ x) : (s.setV x b).getV r = s.getV r := by
  rw [State.getV_setV, if_neg h]

/-- Settles O32: each is a write of VX, and the addition of bytes is modulo 256. -/
theorem loadsAndImmediateAdd : Obligations.LoadsAndImmediateAdd := by
  unfold Obligations.LoadsAndImmediateAdd
  refine fun s x y nn => ⟨?_, ?_, ?_⟩
  · exact ⟨s.setV x nn, rfl, onlyV_setV s x _, fun r => s.getV_setV x r _⟩
  · refine ⟨s.setV x (s.getV x + nn), rfl, onlyV_setV s x _, ?_, fun r => getV_setV_of_ne s _⟩
    rw [getV_setV_same, BitVec.toNat_add]
  · exact ⟨s.setV x (s.getV y), rfl, onlyV_setV s x _, fun r => s.getV_setV x r _⟩

/-- Settles O33: each is a write of VX with a bitwise operation, VF included among the registers left alone. -/
theorem logicalOperations : Obligations.LogicalOperations := by
  unfold Obligations.LogicalOperations
  refine fun s x y => ⟨?_, ?_, ?_⟩
  · refine ⟨s.setV x (s.getV x ||| s.getV y), rfl, onlyV_setV s x _, fun r => getV_setV_of_ne s _, fun b => ?_⟩
    rw [getV_setV_same, BitVec.getLsbD_or]
  · refine ⟨s.setV x (s.getV x &&& s.getV y), rfl, onlyV_setV s x _, fun r => getV_setV_of_ne s _, fun b => ?_⟩
    rw [getV_setV_same, BitVec.getLsbD_and]
  · refine ⟨s.setV x (s.getV x ^^^ s.getV y), rfl, onlyV_setV s x _, fun r => getV_setV_of_ne s _, fun b => ?_⟩
    rw [getV_setV_same, BitVec.getLsbD_xor]

/-! ### Writing a result and its flag (R90) -/

theorem onlyV_writeWithFlag (s : State) (x : Reg) (res : Byte) (flag : Bool) :
    OnlyV s (s.writeWithFlag x res flag) := rfl

/-- The flag is written last, so VF holds it even when X = F. -/
theorem getV_writeWithFlag_VF (s : State) (x : Reg) (res : Byte) (flag : Bool) :
    (s.writeWithFlag x res flag).getV VF = flagByte flag := by
  rw [State.getV_writeWithFlag, if_pos rfl]

theorem getV_writeWithFlag_same (s : State) {x : Reg} (res : Byte) (flag : Bool) (h : x ≠ VF) :
    (s.writeWithFlag x res flag).getV x = res := by
  rw [State.getV_writeWithFlag, if_neg h, if_pos rfl]

theorem getV_writeWithFlag_of_ne (s : State) {x r : Reg} (res : Byte) (flag : Bool) (hx : r ≠ x) (hF : r ≠ VF) :
    (s.writeWithFlag x res flag).getV r = s.getV r := by
  rw [State.getV_writeWithFlag, if_neg hF, if_neg hx]

theorem flagByte_carryOut (a b : Byte) : flagByte (carryOut a b) = if a.toNat + b.toNat > 255 then 1 else 0 := by
  simp only [flagByte, carryOut, decide_eq_true_eq]

/-- Settles O34: `State.writeWithFlag` with the sum of two bytes and its carry. -/
theorem addWithCarry : Obligations.AddWithCarry := by
  unfold Obligations.AddWithCarry
  refine fun s x y => ⟨s.writeWithFlag x (s.getV x + s.getV y) (carryOut (s.getV x) (s.getV y)), rfl,
    onlyV_writeWithFlag s x _ _, ?_, fun hx => ?_, fun r => getV_writeWithFlag_of_ne s _ _⟩
  · rw [getV_writeWithFlag_VF, flagByte_carryOut]
  · rw [getV_writeWithFlag_same s _ _ hx, BitVec.toNat_add]

/-! ### Shifts by one (R99, R101) -/

theorem toNat_flagByte (c : Bool) : (flagByte c).toNat = c.toNat := by
  cases c <;> rfl

/-- The bit a right shift moves out is the remainder by 2. -/
theorem toNat_flagByte_lowBit (a : Byte) : (flagByte (lowBit a)).toNat = a.toNat % 2 := by
  rw [toNat_flagByte, lowBit, BitVec.getLsbD, Nat.toNat_testBit, pow_zero, Nat.div_one]

/-- The bit a left shift moves out is the quotient by 128, which for a byte is at most 1. -/
theorem toNat_flagByte_highBit (a : Byte) : (flagByte (highBit a)).toNat = a.toNat / 128 := by
  have := a.isLt
  rw [toNat_flagByte, highBit, BitVec.getLsbD, Nat.toNat_testBit]
  omega

theorem toNat_ushiftRight_one (a : Byte) : (a >>> 1).toNat = a.toNat / 2 := by
  rw [BitVec.toNat_ushiftRight, Nat.shiftRight_one]

theorem toNat_shiftLeft_one (a : Byte) : (a <<< 1).toNat = a.toNat * 2 % 256 := by
  rw [BitVec.toNat_shiftLeft, Nat.shiftLeft_eq, pow_one]

/-- Settles O36: `State.writeWithFlag` with the shifted operand and the bit shifted out; the operand is `shiftOperand`, under
either value of the quirk. -/
theorem shiftsByOne : Obligations.ShiftsByOne := by
  unfold Obligations.ShiftsByOne
  intro s x y
  rw [← shiftOperand]
  refine ⟨⟨s.writeWithFlag x (shiftOperand s x y >>> 1) (lowBit (shiftOperand s x y)), rfl,
      onlyV_writeWithFlag s x _ _, ?_, fun hx => ?_, fun r => getV_writeWithFlag_of_ne s _ _⟩,
    ⟨s.writeWithFlag x (shiftOperand s x y <<< 1) (highBit (shiftOperand s x y)), rfl,
      onlyV_writeWithFlag s x _ _, ?_, fun hx => ?_, fun r => getV_writeWithFlag_of_ne s _ _⟩⟩
  · rw [getV_writeWithFlag_VF, toNat_flagByte_lowBit]
  · rw [getV_writeWithFlag_same s _ _ hx, toNat_ushiftRight_one]
  · rw [getV_writeWithFlag_VF, toNat_flagByte_highBit]
  · rw [getV_writeWithFlag_same s _ _ hx, toNat_shiftLeft_one]

end Sys2Proof.Proofs.Alu
end

section
/-! The statements of 43_index_memory.md: the loads of I (R103, R105), ADD I, Vx (R104) and the register transfers of FX55
and FX65 (R107, R108). -/

namespace Sys2Proof.Proofs.IndexMemory

open Sys2Proof Sys2Proof.Machine Sys2Proof.Safety

/-! ### Writing I (R103 to R105) -/

theorem onlyI_setI (s : State) (a : Word) : OnlyI s (s.setI a) := rfl

theorem onlyVI_setI (s : State) (a : Word) : OnlyVI s (s.setI a) := rfl

theorem onlyVI_setI_setV (s : State) (a : Word) (x : Reg) (b : Byte) : OnlyVI s ((s.setI a).setV x b) := rfl

theorem getV_setI (s : State) (a : Word) (r : Reg) : (s.setI a).getV r = s.getV r := rfl

/-- The glyph address of any byte fits in 16 bits (R105). -/
theorem toNat_glyphAddr (b : Byte) : (BitVec.ofNat 16 (fontBase + b.toNat * 5)).toNat = 0x050 + b.toNat * 5 := by
  have := b.isLt
  rw [BitVec.toNat_ofNat, fontBase]
  omega

/-- Settles O38: each is a write of I, and neither value is reduced. -/
theorem indexLoads : Obligations.IndexLoads := by
  unfold Obligations.IndexLoads
  refine fun s nnn x => ⟨?_, ?_⟩
  · exact ⟨s.setI (zextAddr nnn), rfl, onlyI_setI s _, toNat_zextAddr nnn⟩
  · exact ⟨s.setI _, rfl, onlyI_setI s _, toNat_glyphAddr (s.getV x)⟩

theorem toNat_add_zextByte (a : Word) (b : Byte) : (a + zextByte b).toNat = (a.toNat + b.toNat) % 65536 := by
  rw [BitVec.toNat_add, toNat_zextByte]

/-- Masking with 0x0FFF keeps the low 12 bits. -/
theorem toNat_and_0FFF (a : Word) : (a &&& 0x0FFF).toNat = a.toNat % 4096 := by
  rw [BitVec.toNat_and]
  exact Nat.and_two_pow_sub_one_eq_mod a.toNat 12

/-- Settles O39: the two branches of FX1E; only the one above 0x0FFF masks the sum and writes VF. -/
theorem indexAdd : Obligations.IndexAdd := by
  unfold Obligations.IndexAdd
  intro s x sum
  have hsum : (s.i + zextByte (s.getV x)).toNat = sum := toNat_add_zextByte s.i (s.getV x)
  rcases Nat.lt_or_ge 0x0FFF sum with h | h
  · refine ⟨_, exec_addIVx_of_gt s x (hsum ▸ h), onlyVI_setI_setV s _ VF 1, fun r hr => ?_, fun _ => ⟨?_, ?_⟩,
      fun hle => absurd h (Nat.not_lt.2 hle)⟩
    · rw [Alu.getV_setV_of_ne _ _ hr, getV_setI]
    · rw [State.setV_i, State.setI_i, toNat_and_0FFF, hsum]
    · rw [Alu.getV_setV_same]
  · exact ⟨_, exec_addIVx_of_le s x (hsum ▸ h), onlyVI_setI s _, fun r _ => getV_setI s _ r,
      fun hgt => absurd hgt (Nat.not_lt.2 h), fun _ => ⟨hsum, getV_setI s _ VF⟩⟩

/-! ### The advance of I (R107, R108) -/

section Advance

variable (s : State) (x : Reg)

theorem onlyMemI_advanceI (m : Memory) : OnlyMemI s (State.advanceI { s with mem := m } x) := by
  rw [State.advanceI_eq]
  rfl

theorem mem_advanceI : (s.advanceI x).mem = s.mem := by rw [State.advanceI_eq]

theorem getV_advanceI (r : Reg) : (s.advanceI x).getV r = s.getV r := by
  rw [State.advanceI_eq]
  rfl

/-- I + X + 1 modulo 2^16 under quirk_index_increment, I without it. -/
theorem toNat_advanceI_i : (s.advanceI x).i.toNat =
    if s.cfg.indexIncrement then (s.i.toNat + x.val + 1) % 65536 else s.i.toNat := by
  rw [State.advanceI_eq, apply_ite BitVec.toNat, BitVec.toNat_add, BitVec.toNat_ofNat, Nat.add_mod_mod, Nat.add_assoc]

end Advance

/-! ### Register transfers (R107, R108) -/

/-- Settles O41: inside memory by `read_storeRegs`, whose bytes the advance of I leaves alone; past its end the fault that
ends the step. -/
theorem storeRegisters : Obligations.StoreRegisters := by
  unfold Obligations.StoreRegisters
  refine ⟨fun s x hwf hle => ?_, fun s x hr hgt => ?_⟩
  · have hread := read_storeRegs hwf (a := s.i.toNat) (x := x) (by simp only [memSize]; omega)
    refine ⟨_, exec_ldMemVx_of_le s x hle, onlyMemI_advanceI s x _, fun r hrx => ?_, fun a ha => ?_,
      toNat_advanceI_i _ x⟩
    · rw [mem_advanceI, hread, dif_pos ⟨Nat.le_add_right _ _, Nat.add_le_add_left hrx _⟩]
      simp only [Nat.add_sub_cancel_left]
    · rw [mem_advanceI, hread, dif_neg ha]
  · have hpast : (s.fetched (isDraw (.ldMemVx x))).i.toNat + x.val > 0x0FFF := hgt
    exact step_of_raise hr nofun (exec_ldMemVx_of_gt _ x hpast)

theorem onlyVI_advanceI_loadRegs (s : State) (a : Nat) (x : Reg) : OnlyVI s ((loadRegs s a x).advanceI x) := by
  rw [State.advanceI_eq, loadRegs_eq]
  rfl

theorem toNat_advanceI_loadRegs_i (s : State) (a : Nat) (x : Reg) : ((loadRegs s a x).advanceI x).i.toNat =
    if s.cfg.indexIncrement then (s.i.toNat + x.val + 1) % 65536 else s.i.toNat := by
  rw [loadRegs_eq, toNat_advanceI_i]

/-- Settles O42: inside memory by `getV_loadRegs`, whose registers the advance of I leaves alone; past its end the fault that
ends the step. -/
theorem loadRegisters : Obligations.LoadRegisters := by
  unfold Obligations.LoadRegisters
  refine ⟨fun s x hle => ?_, fun s x hr hgt => ?_⟩
  · refine ⟨_, exec_ldVxMem_of_le s x hle, onlyVI_advanceI_loadRegs s _ x, fun r => ?_, toNat_advanceI_loadRegs_i s _ x⟩
    rw [getV_advanceI, getV_loadRegs]
  · have hpast : (s.fetched (isDraw (.ldVxMem x))).i.toNat + x.val > 0x0FFF := hgt
    exact step_of_raise hr nofun (exec_ldVxMem_of_gt _ x hpast)

end Sys2Proof.Proofs.IndexMemory
end

section
/-! The statements of 44_display.md: CLS (R109) and DRW in linear mode (R110). -/

namespace Sys2Proof.Proofs.Display

open Sys2Proof Sys2Proof.Machine Sys2Proof.Safety

/-! ### CLS (R109) -/

/-- Settles O45: the framebuffer CLS leaves is the cleared one. -/
theorem clearScreen : Obligations.ClearScreen := by
  unfold Obligations.ClearScreen
  exact fun s => ⟨{ s with fb := Frame.clear, dirty := true }, rfl, Frame.pixel_clear, rfl, rfl⟩

/-! ### The state DXYN leaves (R110) -/

/-- The state DXYN leaves when its rows lie inside memory. -/
def drawn (s : State) (x y : Reg) (n : Nibble) : State :=
  State.setV { s with fb := (drawCanvas s x y n).1, dirty := true } VF (flagByte (drawCanvas s x y n).2)

section Drawn

variable {s : State} {x y : Reg} {n : Nibble} {k : Fin 2048}

theorem exec_drw_eq_drawn (h : n = 0 ∨ s.i.toNat + n.toNat - 1 ≤ 0x0FFF) :
    exec (.drw x y n) s = .next (drawn s x y n) := exec_drw_of_le s x y n h

theorem onlyFrameV_drawn : OnlyFrameV s (drawn s x y n) := rfl

theorem dirty_drawn : (drawn s x y n).dirty = true := rfl

theorem pixel_drawn : (drawn s x y n).fb.pixel k = (s.fb.pixel k ^^ decide (k ∈ drawCells s x y n)) :=
  (drawCanvas_spec s x y n).1 k

theorem pixel_drawn_of_mem (h : k ∈ drawCells s x y n) : (drawn s x y n).fb.pixel k = !s.fb.pixel k := by
  rw [pixel_drawn, decide_eq_true h, Bool.xor_true]

theorem pixel_drawn_of_not_mem (h : k ∉ drawCells s x y n) : (drawn s x y n).fb.pixel k = s.fb.pixel k := by
  rw [pixel_drawn, decide_eq_false h, Bool.xor_false]

theorem getV_drawn_of_ne {r : Reg} (h : r ≠ VF) : (drawn s x y n).getV r = s.getV r :=
  Alu.getV_setV_of_ne _ _ h

/-- VF is written last, so it holds the collision even when X or Y is F. -/
theorem getV_drawn_VF :
    (drawn s x y n).getV VF = if ∃ k, k ∈ drawCells s x y n ∧ s.fb.pixel k = true then 1 else 0 := by
  rw [drawn, Alu.getV_setV_same, (drawCanvas_spec s x y n).2, flagByte]
  simp only [List.any_eq_true]

/-- What DXYN does inside memory, in any wrap mode, by the condition that its sprite covers a cell. -/
theorem exec_drw_of_covers {covered : Fin 2048 → Prop} (hcov : ∀ k, k ∈ drawCells s x y n ↔ covered k)
    (h : n = 0 ∨ s.i.toNat + n.toNat - 1 ≤ 0x0FFF) :
    ∃ t, exec (.drw x y n) s = .next t ∧ OnlyFrameV s t ∧ t.dirty = true ∧
      (∀ k, covered k → t.fb.pixel k = !s.fb.pixel k) ∧ (∀ k, ¬ covered k → t.fb.pixel k = s.fb.pixel k) ∧
      (∀ r, r ≠ VF → t.getV r = s.getV r) ∧
      ((∃ k, covered k ∧ s.fb.pixel k = true) → t.getV VF = 1) ∧
      ((¬ ∃ k, covered k ∧ s.fb.pixel k = true) → t.getV VF = 0) := by
  simp only [← hcov]
  exact ⟨drawn s x y n, exec_drw_eq_drawn h, onlyFrameV_drawn, dirty_drawn, fun _ => pixel_drawn_of_mem,
    fun _ => pixel_drawn_of_not_mem, fun _ => getV_drawn_of_ne, fun hhit => getV_drawn_VF.trans (if_pos hhit),
    fun hmiss => getV_drawn_VF.trans (if_neg hmiss)⟩

/-! ### Linear mode (R110) -/

theorem spriteCell_linear_eq_some {px py : Nat} :
    spriteCell .linear px py = some k ↔ k.val = (px + py * 64) % 2048 := by
  simp only [spriteCell, Option.some.injEq, Fin.ext_iff, eq_comm]

theorem mem_drawCells_of_linear (h : s.cfg.spriteWrap = .linear) (k : Fin 2048) :
    k ∈ drawCells s x y n ↔ ∃ r c, r < n.toNat ∧ c < 8 ∧ (s.mem.read (s.i.toNat + r)).getLsbD (7 - c) = true ∧
      k.val = ((s.getV x).toNat % 64 + c + ((s.getV y).toNat % 32 + r) * 64) % 2048 := by
  simp only [drawCells, h, mem_spriteCells, rowPixel, indexAddr, spriteCell_linear_eq_some]

end Drawn

/-- Settles O46: inside memory by the cells linear mode covers, past its end the fault that ends the step. -/
theorem drawLinear : Obligations.DrawLinear := by
  unfold Obligations.DrawLinear
  refine ⟨fun s x y n hwrap hin => exec_drw_of_covers (mem_drawCells_of_linear hwrap) hin, fun s x y n hr hn hgt => ?_⟩
  have hpast : (s.fetched (isDraw (.drw x y n))).i.toNat + n.toNat - 1 > 0x0FFF := hgt
  exact step_of_raise hr nofun (exec_drw_of_gt _ x y n hn hpast)

end Sys2Proof.Proofs.Display
end

section
/-! The statements of 45_input_timers.md: the skips on a key (R112, R113), the wait for a key (R115) and the moves between VX
and the timers (R114, R116, R117). -/

namespace Sys2Proof.Proofs.InputTimers

open Sys2Proof Sys2Proof.Machine Sys2Proof.Safety

/-! ### The wait for a key (R115) -/

/-- Settles O50: the search finds no key exactly when none is pressed, otherwise the lowest; the number of a key fits in a
byte. -/
theorem waitForKey : Obligations.WaitForKey := by
  unfold Obligations.WaitForKey
  refine fun s x => ⟨fun hnone => exec_ldVxK_of_none s x hnone, fun k hk hlow => ?_⟩
  refine ⟨s.setV x (BitVec.ofNat 8 k.val), exec_ldVxK_of_pressed s x hk hlow, Alu.onlyV_setV s x _, ?_,
    fun r => Alu.getV_setV_of_ne s _⟩
  have hbyte : k.val < 2 ^ 8 := by omega
  rw [Alu.getV_setV_same, BitVec.toNat_ofNat, Nat.mod_eq_of_lt hbyte]

/-! ### The skips on a key (R112, R113) -/

/-- Settles O49: a VX below 16 names a key, and each skip tests that key or its negation; a VX of 16 or more raises the fault
that ends the step. -/
theorem skipsOnKey : Obligations.SkipsOnKey := by
  unfold Obligations.SkipsOnKey
  refine ⟨fun s x k hk => ⟨?_, ?_⟩, fun s x hr hge => ?_⟩
  · rw [exec_skp_of_key s x hk, State.skipIf_eq]
  · have hneg : (!s.key[k]) = true ↔ ¬ s.key[k] = true := by rw [Bool.not_eq_true', Bool.not_eq_true]
    rw [exec_sknp_of_key s x hk, Flow.skipIf_eq_of_iff hneg, ite_not]
  · rcases hr with hskp | hsknp
    · exact step_of_raise hskp nofun (exec_skp_of_ge _ x hge)
    · exact step_of_raise hsknp nofun (exec_sknp_of_ge _ x hge)

/-! ### The timer moves (R114, R116, R117) -/

/-- Settles O51: FX07 is a write of VX; FX15 and FX18 write the timer and nothing else. -/
theorem timerMoves : Obligations.TimerMoves := by
  unfold Obligations.TimerMoves
  exact fun s x => ⟨⟨s.setV x s.dt, rfl, Alu.onlyV_setV s x _, fun r => s.getV_setV x r _⟩, rfl, rfl⟩

end Sys2Proof.Proofs.InputTimers
end

section
/-! The statements of 60_exceptions.md: the table of faults (R119), the halted core (R121), the Tick (R126) and the host's
events and reads (R127 to R130). -/

namespace Sys2Proof.Proofs.Exceptions

open Sys2Proof Sys2Proof.Machine Sys2Proof.Safety

/-! ### What the host's operations other than Load and Step do (R126 to R130) -/

section HostOperations

variable (r : Session) (k : Key)

theorem perform_tick : perform .tick r = some (.done, { r with core := r.core.tick, tickOwed := false }) :=
  perform_of_admits rfl rfl

theorem perform_keyDown : perform (.keyDown k) r = some (.done, { r with core := r.core.keyDown k }) :=
  perform_of_admits rfl rfl

theorem perform_keyUp : perform (.keyUp k) r = some (.done, { r with core := r.core.keyUp k }) :=
  perform_of_admits rfl rfl

theorem perform_clearDirty : perform .clearDirty r = some (.done, { r with core := r.core.clearDirty }) :=
  perform_of_admits rfl rfl

theorem perform_readFrame : perform .readFrame r = some (.frame r.core.fb r.core.dirty, r) :=
  perform_of_admits rfl rfl

theorem perform_toneActive : perform .toneActive r = some (.tone (decide (r.core.st.toNat > 0)), r) :=
  perform_of_admits rfl rfl

theorem perform_readStatus : perform .readStatus r = some (.status r.core.readStatus, r) :=
  perform_of_admits rfl rfl

end HostOperations

/-- A timer's countdown as a number, where subtraction stops at zero (R126). -/
theorem toNat_countDown (t : Byte) : (countDown t).toNat = t.toNat - 1 := by
  rw [countDown]
  split
  next hpos => exact BitVec.toNat_sub_of_le hpos
  next hzero => omega

/-- Settles O52: each timer of the ticked core by `toNat_countDown`. -/
theorem tickDecrements : Obligations.TickDecrements := by
  unfold Obligations.TickDecrements
  exact fun r => ⟨r.core.tick, perform_tick r, toNat_countDown r.core.dt, toNat_countDown r.core.st, rfl⟩

/-- Settles O54: each operation by its `perform` equation, the keys after an event by `State.key_keyDown` and
`State.key_keyUp`. -/
theorem hostEventsAndReads : Obligations.HostEventsAndReads := by
  unfold Obligations.HostEventsAndReads
  refine fun r => ⟨perform_toneActive r, fun k => ?_, fun k => ?_, perform_readFrame r, perform_clearDirty r, ?_⟩
  · exact ⟨r.core.keyDown k, perform_keyDown r k, rfl, r.core.key_keyDown k⟩
  · exact ⟨r.core.keyUp k, perform_keyUp r k, rfl, r.core.key_keyUp k⟩
  · exact ⟨r.core.readStatus, perform_readStatus r, rfl, rfl, rfl, rfl, rfl, rfl⟩

/-! ### The halted core (R121) -/

/-- Once a fault is recorded, no operation overwrites it: a Load is no longer admitted, a Step changes nothing, and the
others do not write the record (R121). -/
theorem fault_eq_of_perform {op : Operation} {r q : Session} {response : Response} (hl : r.core.loaded = true)
    (hh : Halted r.core) (h : perform op r = some (response, q)) : q.core.fault = r.core.fault := by
  obtain ⟨hadm, t, heff, rfl⟩ := perform_cases h
  rw [Session.after_core]
  rcases effect_cases heff with ⟨image, rfl, -⟩ | ⟨-, hstep⟩ | ⟨-, rfl⟩ | ⟨k, -, rfl⟩ | ⟨k, -, rfl⟩ | ⟨-, rfl⟩ | ⟨-, rfl⟩
  · exact absurd ((Session.admits_load.1 hadm).1.symm.trans hl) nofun
  · cases hstep.symm.trans (step_of_halted hl hh)
    rfl
  · rfl
  · rfl
  · rfl
  · rfl
  · rfl

/-- Settles O8: the step by `step_of_halted`, the record by `fault_eq_of_perform`; the other operations do not look at the
record. -/
theorem haltedCore : Obligations.HaltedCore := by
  unfold Obligations.HaltedCore
  exact fun r hh hl => ⟨step_of_halted hl hh, fun _ _ _ => fault_eq_of_perform hl hh, perform_tick r, perform_keyDown r,
    perform_keyUp r, perform_clearDirty r, perform_readFrame r, perform_toneActive r, perform_readStatus r⟩

/-! ### The table of faults (R119) -/

/-- The rows of R119: the condition under which a step of a loaded, running core raises a fault, and the `fault_addr` it
records. -/
def FaultRow (s : State) : FaultCode → Option Nat → Prop
  | .noFault, _ => False
  | .stackUnderflow, info => (Runs s .ret ∧ s.stack.length = 0) ∧ info = none
  | .stackOverflow, info => ((∃ nnn, Runs s (.call nnn)) ∧ s.stack.length = 16) ∧ info = none
  | .fetchOutOfRange, info =>
    s.pc.toNat + 1 ≥ 4096 ∧ info = some (if s.pc.toNat = 0xFFF then s.pc.toNat + 1 else s.pc.toNat)
  | .dataOutOfRange, info =>
    ((∃ x y n, Runs s (.drw x y n) ∧ n ≠ 0 ∧ s.i.toNat + n.toNat - 1 ≥ 4096) ∨
      (∃ x, Runs s (.ldBVx x) ∧ s.i.toNat + 2 ≥ 4096) ∨
      (∃ x, (Runs s (.ldMemVx x) ∨ Runs s (.ldVxMem x)) ∧ s.i.toNat + x.val ≥ 4096)) ∧
    info = some (max s.i.toNat 0x1000)
  | .keyOutOfRange, info =>
    ∃ x, ((Runs s (.skp x) ∨ Runs s (.sknp x)) ∧ (s.getV x).toNat ≥ 16) ∧ info = some (s.getV x).toNat
  | .unknownOpcode, info =>
    (s.canFetch = true ∧ (∃ e, s.decoded = .error e) ∧ s.cfg.unknownOp = .fault) ∧ info = none

variable {s t : State} {c : FaultCode} {info : Option Nat}

theorem canFetch_eq_false_iff : s.canFetch = false ↔ s.pc.toNat + 1 ≥ 4096 := by
  rw [← Bool.not_eq_true, canFetch_iff]
  omega

/-- The address a fetch fault records, in the words of its row: pc, but pc + 1 where the first byte is still inside. -/
theorem firstOutside_of_ge {a : Nat} (h : a + 1 ≥ 4096) : firstOutside a = if a = 0xFFF then a + 1 else a :=
  (FetchAndLoad.firstOutside_of_gt h).trans (if_congr (by omega) rfl rfl)

/-- A fault that an instruction raises is a row of R119. -/
theorem faultRow_of_raises {i : Instr} {d : Bool} (hstack : s.stack.length ≤ 16) (hr : Runs s i)
    (h : Raises i (s.fetched d) c info) : FaultRow s c info := by
  cases i with
  | ret =>
    obtain ⟨hempty, rfl, rfl⟩ := h
    exact ⟨⟨hr, List.length_eq_zero_iff.2 hempty⟩, rfl⟩
  | call nnn =>
    obtain ⟨hfull, rfl, rfl⟩ := h
    exact ⟨⟨⟨nnn, hr⟩, Nat.le_antisymm hstack hfull⟩, rfl⟩
  | drw x y n =>
    obtain ⟨hn, hout, rfl, rfl⟩ := h
    exact ⟨.inl ⟨x, y, n, hr, hn, hout⟩, rfl⟩
  | ldBVx x =>
    obtain ⟨hout, rfl, rfl⟩ := h
    exact ⟨.inr (.inl ⟨x, hr, hout⟩), rfl⟩
  | ldMemVx x =>
    obtain ⟨hout, rfl, rfl⟩ := h
    exact ⟨.inr (.inr ⟨x, .inl hr, hout⟩), rfl⟩
  | ldVxMem x =>
    obtain ⟨hout, rfl, rfl⟩ := h
    exact ⟨.inr (.inr ⟨x, .inr hr, hout⟩), rfl⟩
  | skp x =>
    obtain ⟨hkey, rfl, rfl⟩ := h
    exact ⟨x, ⟨.inl hr, hkey⟩, rfl⟩
  | sknp x =>
    obtain ⟨hkey, rfl, rfl⟩ := h
    exact ⟨x, ⟨.inr hr, hkey⟩, rfl⟩
  | _ => exact h.elim

/-- A step leaves the record alone or records the fault of a row of R119. -/
theorem fault_eq_or_faultRow (hf : s.fault.code = .noFault) (hstack : s.stack.length ≤ 16) (h : step s = .next t) :
    t.fault = s.fault ∨ FaultRow s t.fault.code t.fault.addr := by
  obtain ⟨-, ⟨hhalt, -⟩ | ⟨-, hc, rfl⟩ | ⟨i, -, -, heq⟩ | ⟨i, c, info, hr, hraises, -, rfl⟩ | ⟨-, -, -, -, rfl⟩ |
    ⟨-, hc, hd, hpolicy, rfl⟩⟩ := step_effect h
  · exact absurd hf hhalt
  · have hout := canFetch_eq_false_iff.1 hc
    exact .inr ⟨hout, congrArg some (firstOutside_of_ge hout)⟩
  · exact .inl heq
  · exact .inr (faultRow_of_raises hstack hr hraises)
  · exact .inl rfl
  · exact .inr ⟨⟨hc, hd, hpolicy⟩, rfl⟩

/-- Under the condition of a row of R119 the step faults with the code and the address of that row. -/
theorem step_of_faultRow (hl : s.loaded = true) (hf : s.fault.code = .noFault) (hc : c ≠ .noFault)
    (h : FaultRow s c info) : ∃ t, step s = .next t ∧ t.fault.code = c ∧ t.fault.addr = info := by
  cases c with
  | noFault => exact h.elim
  | stackUnderflow =>
    obtain ⟨⟨hr, hempty⟩, rfl⟩ := h
    exact ⟨_, step_of_raise hr hc (exec_ret_of_nil _ (List.length_eq_zero_iff.1 hempty)), rfl, rfl⟩
  | stackOverflow =>
    obtain ⟨⟨⟨nnn, hr⟩, hfull⟩, rfl⟩ := h
    exact ⟨_, step_of_raise hr hc (exec_call_of_ge _ nnn hfull.ge), rfl, rfl⟩
  | fetchOutOfRange =>
    obtain ⟨hout, rfl⟩ := h
    exact ⟨_, step_of_fetch_fault hl hf (canFetch_eq_false_iff.2 hout), rfl, congrArg some (firstOutside_of_ge hout)⟩
  | dataOutOfRange =>
    obtain ⟨⟨x, y, n, hr, hn, hout⟩ | ⟨x, hr, hout⟩ | ⟨x, hr | hr, hout⟩, rfl⟩ := h
    · exact ⟨_, step_of_raise hr hc (exec_drw_of_gt _ x y n hn hout), rfl, rfl⟩
    · exact ⟨_, step_of_raise hr hc (exec_ldBVx_of_gt _ x hout), rfl, rfl⟩
    · exact ⟨_, step_of_raise hr hc (exec_ldMemVx_of_gt _ x hout), rfl, rfl⟩
    · exact ⟨_, step_of_raise hr hc (exec_ldVxMem_of_gt _ x hout), rfl, rfl⟩
  | keyOutOfRange =>
    obtain ⟨x, ⟨hr | hr, hkey⟩, rfl⟩ := h
    · exact ⟨_, step_of_raise hr hc (exec_skp_of_ge _ x hkey), rfl, rfl⟩
    · exact ⟨_, step_of_raise hr hc (exec_sknp_of_ge _ x hkey), rfl, rfl⟩
  | unknownOpcode =>
    obtain ⟨⟨hword, ⟨e, hd⟩, hpolicy⟩, rfl⟩ := h
    exact ⟨_, (Cycle.unrecognizedWord s e hl hf hword hd).2 hpolicy, rfl, rfl⟩

/-- The step of a loaded, running core records exactly the rows of R119. -/
theorem fault_iff_faultRow (hl : s.loaded = true) (hf : s.fault.code = .noFault) (hstack : s.stack.length ≤ 16)
    (h : step s = .next t) (hc : c ≠ .noFault) : t.fault.code = c ∧ t.fault.addr = info ↔ FaultRow s c info := by
  constructor
  · rintro ⟨rfl, rfl⟩
    refine (fault_eq_or_faultRow hf hstack h).resolve_left fun heq => hc ?_
    rw [heq, hf]
  · intro hrow
    obtain ⟨u, hu, hrec⟩ := step_of_faultRow hl hf hc hrow
    cases h.symm.trans hu
    exact hrec

/-- Settles O12: a fault and its address by `fault_iff_faultRow`, the other two fields of the record by the precision of
faults (R77). -/
theorem faultConditions : Obligations.FaultConditions := by
  unfold Obligations.FaultConditions
  refine ⟨⟨rfl, rfl, rfl, rfl, rfl, rfl, rfl⟩, fun s t hl hf hstack h => ?_⟩
  have hrow {c info} (hc : c ≠ .noFault) : t.fault.code = c ∧ t.fault.addr = info ↔ FaultRow s c info :=
    fault_iff_faultRow hl hf hstack h hc
  have row_of_code {c} (heq : t.fault.code = c) (hc : c ≠ .noFault) : FaultRow s c t.fault.addr :=
    (hrow hc).1 ⟨heq, rfl⟩
  have code_iff {c p a} (hc : c ≠ .noFault) (hp : ∀ info, FaultRow s c info ↔ p ∧ info = a) : t.fault.code = c ↔ p :=
    ⟨fun heq => ((hp _).1 (row_of_code heq hc)).1, fun h => ((hrow hc).2 ((hp a).2 ⟨h, rfl⟩)).1⟩
  refine ⟨code_iff nofun fun _ => Iff.rfl, code_iff nofun fun _ => Iff.rfl, code_iff nofun fun _ => Iff.rfl,
    code_iff nofun fun _ => Iff.rfl, ⟨fun heq => ?_, fun ⟨x, hx⟩ => ?_⟩, code_iff nofun fun _ => Iff.rfl,
    fun hnone => ?_, fun hne => ?_, fun heq => ?_, fun heq => ?_, fun heq => ?_, ?_⟩
  · obtain ⟨x, hx, -⟩ := row_of_code heq nofun
    exact ⟨x, hx⟩
  · exact ((hrow (c := .keyOutOfRange) nofun).2 ⟨x, hx, rfl⟩).1
  · refine (fault_eq_or_faultRow hf hstack h).resolve_right fun hr => ?_
    rwa [hnone] at hr
  · have hchanged : t.fault ≠ s.fault := fun heq => hne (heq ▸ hf)
    obtain ⟨-, -, -, hpc, hop, -⟩ := Cycle.faultsArePrecise s t h hchanged
    exact ⟨hpc, hop⟩
  · exact (row_of_code heq nofun).2
  · exact (row_of_code heq nofun).2
  · obtain ⟨x, ⟨hr, -⟩, hinfo⟩ := row_of_code heq nofun
    exact ⟨x, hr, hinfo⟩
  · rintro (heq | heq | heq) <;> exact (row_of_code heq nofun).2

end Sys2Proof.Proofs.Exceptions
end

section
/-! What each instruction writes, said once (`eq_overwrite`), and the statements of 10_state.md and 20_memory.md that
follow from it: the flags `dirty` and `drew` (R33), what no step changes (R30, R31, R37) and which instructions alone write
memory, the registers and the rest of the state block (R17 to R19, R25, R27 to R29, R35, R51). -/

namespace Sys2Proof.Proofs.Writes

open Sys2Proof Sys2Proof.Machine Sys2Proof.Safety

variable {s t : State} {i : Instr}

/-! ### The elements an instruction writes -/

/-- The elements of the state block (R15) that the execute phase writes on a step without a fault; `draws` is the
model's own (log entry 3). -/
inductive Element where
  | mem | v | i | pc | stack | dt | st | fb | dirty | draws
  deriving DecidableEq

/-- The elements that the meaning of an instruction writes. -/
def writes : Instr → List Element
  | .cls => [.fb, .dirty]
  | .ret | .call _ => [.stack, .pc]
  | .jp _ | .jpV0 _ | .jpVx _ _ | .seImm _ _ | .sneImm _ _ | .seReg _ _ | .sneReg _ _ | .skp _ | .sknp _ => [.pc]
  | .ldImm _ _ | .addImm _ _ | .ldReg _ _ | .orReg _ _ | .andReg _ _ | .xorReg _ _ | .addReg _ _ | .sub _ _ | .shr _ _
  | .subn _ _ | .shl _ _ | .ldVxDt _ => [.v]
  | .rnd _ _ => [.v, .draws]
  | .ldI _ | .ldFVx _ => [.i]
  | .addIVx _ | .ldVxMem _ => [.v, .i]
  | .ldBVx _ => [.mem]
  | .ldMemVx _ => [.mem, .i]
  | .drw _ _ _ => [.fb, .dirty, .v]
  | .ldVxK _ => [.v, .pc]
  | .ldDtVx _ => [.dt]
  | .ldStVx _ => [.st]

/-- `s` with the elements of `w` taken from `t`. -/
def overwrite (w : List Element) (s t : State) : State :=
  { s with
    mem := if .mem ∈ w then t.mem else s.mem
    v := if .v ∈ w then t.v else s.v
    i := if .i ∈ w then t.i else s.i
    pc := if .pc ∈ w then t.pc else s.pc
    stack := if .stack ∈ w then t.stack else s.stack
    dt := if .dt ∈ w then t.dt else s.dt
    st := if .st ∈ w then t.st else s.st
    fb := if .fb ∈ w then t.fb else s.fb
    dirty := if .dirty ∈ w then t.dirty else s.dirty
    draws := if .draws ∈ w then t.draws else s.draws }

/-- The frame of every instruction that completes: only the elements it writes differ. -/
theorem eq_overwrite (h : Completed i s t) : t = overwrite (writes i) s t := by
  cases i with
  | ret => obtain ⟨st, a, -, rfl⟩ := h; rfl
  | call nnn => obtain ⟨-, rfl⟩ := h; rfl
  | seImm | sneImm | seReg | sneReg => cases h; rw [State.skipIf_eq]; rfl
  | skp x => obtain ⟨k, -, rfl⟩ := h; rw [State.skipIf_eq]; rfl
  | sknp x => obtain ⟨k, -, rfl⟩ := h; rw [State.skipIf_eq]; rfl
  | addIVx x => rcases h with ⟨-, rfl⟩ | ⟨-, rfl⟩ <;> rfl
  | ldBVx x => obtain ⟨-, rfl⟩ := h; rfl
  | ldMemVx x => obtain ⟨-, rfl⟩ := h; rw [State.advanceI_eq]; rfl
  | ldVxMem x => obtain ⟨-, rfl⟩ := h; rw [State.advanceI_eq, loadRegs_eq]; rfl
  | drw x y n => obtain ⟨-, rfl⟩ := h; rfl
  | ldVxK x => rcases h with ⟨k, -, -, rfl⟩ | ⟨-, rfl⟩ <;> rfl
  | _ => cases h; rfl

/-- What `overwrite` cannot write, an instruction that completes keeps. -/
theorem eq_of_completed {α : Type} {p : State → α} (hw : ∀ w (s t : State), p (overwrite w s t) = p s)
    (h : Completed i s t) : p t = p s :=
  (congrArg p (eq_overwrite h)).trans (hw _ s t)

/-- The two states agree on an element. -/
def Element.Same (s t : State) : Element → Prop
  | .mem => t.mem = s.mem
  | .v => t.v = s.v
  | .i => t.i = s.i
  | .pc => t.pc = s.pc
  | .stack => t.stack = s.stack
  | .dt => t.dt = s.dt
  | .st => t.st = s.st
  | .fb => t.fb = s.fb
  | .dirty => t.dirty = s.dirty
  | .draws => t.draws = s.draws

theorem same_overwrite {w : List Element} {e : Element} (hw : e ∉ w) : e.Same s (overwrite w s t) := by
  cases e <;> exact if_neg hw

/-- An element that an instruction leaves different is one that it writes. -/
theorem mem_writes_of_not_same {e : Element} (h : Completed i s t) (hne : ¬ e.Same s t) : e ∈ writes i := by
  by_contra hw
  have hsame : e.Same s (overwrite (writes i) s t) := same_overwrite hw
  rw [← eq_overwrite h] at hsame
  exact hne hsame

/-! ### What a step writes -/

/-- `p` looks at nothing that a step writes outside the execute phase of an instruction that completes: fetch, a fault
and an unrecognized word write `opcode`, pc, `drew`, the fault record and the diagnostic record (R74, R77, R78). -/
def ExecOnly {α : Type} (p : State → α) : Prop :=
  ∀ (s : State) (opcode pc last : Word) (drew seen : Bool) (fault : FaultRecord),
    p { s with opcode := opcode, pc := pc, drew := drew, fault := fault, unkSeen := seen, unkLast := last } = p s

/-- What a step changes beside that, an instruction has written that ran and completed. -/
theorem exists_completed_of_ne {α : Type} {p : State → α} (hp : ExecOnly p) (h : step s = .next t) (hne : p t ≠ p s) :
    ∃ i, Runs s i ∧ Completed i (s.fetched (isDraw i)) t := by
  obtain ⟨-, ⟨-, rfl⟩ | ⟨-, -, rfl⟩ | ⟨i, hr, hc, -⟩ | ⟨i, c, info, -, -, -, rfl⟩ | ⟨-, -, -, -, rfl⟩ |
    ⟨-, -, -, -, rfl⟩⟩ := step_effect h
  · exact absurd rfl hne
  · exact absurd (hp s s.opcode s.pc s.unkLast s.drew s.unkSeen _) hne
  · exact ⟨i, hr, hc⟩
  · exact absurd (hp s s.opcode s.pc s.unkLast s.drew s.unkSeen _) hne
  · exact absurd (hp s s.fetchWord (s.pc + 2) s.fetchWord false true s.fault) hne
  · exact absurd (hp s s.opcode s.pc s.unkLast s.drew s.unkSeen _) hne

/-- An element that a step leaves different was written by the instruction that ran. -/
theorem runs_of_not_same {α : Type} {p : State → α} {e : Element} (hp : ExecOnly p)
    (hsame : ∀ s t : State, e.Same s t → p t = p s) (h : step s = .next t) (hne : p t ≠ p s) :
    ∃ i, Runs s i ∧ e ∈ writes i ∧ Completed i (s.fetched (isDraw i)) t := by
  obtain ⟨i, hr, hc⟩ := exists_completed_of_ne hp h hne
  have hfetch : p (s.fetched (isDraw i)) = p s := hp s s.fetchWord (s.pc + 2) s.unkLast (isDraw i) s.unkSeen s.fault
  exact ⟨i, hr, mem_writes_of_not_same hc fun hs => hne ((hsame _ _ hs).trans hfetch), hc⟩

/-- What no instruction can write, no step changes. -/
theorem eq_of_step {α : Type} {p : State → α} (hp : ExecOnly p) (hw : ∀ w (s t : State), p (overwrite w s t) = p s)
    (h : step s = .next t) : p t = p s := by
  by_contra hne
  obtain ⟨i, -, hc⟩ := exists_completed_of_ne hp h hne
  have hfetch : p (s.fetched (isDraw i)) = p s := hp s s.fetchWord (s.pc + 2) s.unkLast (isDraw i) s.unkSeen s.fault
  exact hne ((eq_of_completed hw hc).trans hfetch)

theorem cfg_eq_of_step (h : step s = .next t) : t.cfg = s.cfg :=
  eq_of_step (p := State.cfg) (fun _ _ _ _ _ _ _ => rfl) (fun _ _ _ => rfl) h

theorem key_eq_of_step (h : step s = .next t) : t.key = s.key :=
  eq_of_step (p := State.key) (fun _ _ _ _ _ _ _ => rfl) (fun _ _ _ => rfl) h

theorem loaded_eq_of_step (h : step s = .next t) : t.loaded = s.loaded :=
  eq_of_step (p := State.loaded) (fun _ _ _ _ _ _ _ => rfl) (fun _ _ _ => rfl) h

/-- Settles O15: no instruction writes the first three; `draws` is among the elements that CXNN alone writes. -/
theorem stepKeepsConfigurationAndKeys : Obligations.StepKeepsConfigurationAndKeys := by
  unfold Obligations.StepKeepsConfigurationAndKeys
  refine fun s t h => ⟨cfg_eq_of_step h, key_eq_of_step h, loaded_eq_of_step h, fun hne => ?_⟩
  obtain ⟨i, hr, hw, hc⟩ :=
    runs_of_not_same (p := State.draws) (e := .draws) (fun _ _ _ _ _ _ _ => rfl) (fun _ _ hs => hs) h hne
  cases i with
  | rnd x nn => cases hc; exact ⟨x, nn, hr, rfl⟩
  | _ => simp [writes] at hw

/-! ### Memory and the registers (R17, R18, R51) -/

theorem length_bcdDigits (b : Byte) : (bcdDigits b).length = 3 := rfl

/-- Settles O16: FX33 and FX55 alone write memory, and each of them at the addresses of its list of bytes. -/
theorem memoryWrittenOnlyByStores : Obligations.MemoryWrittenOnlyByStores := by
  unfold Obligations.MemoryWrittenOnlyByStores
  intro s t hwf h a hne
  obtain ⟨i, hr, hw, hc⟩ := runs_of_not_same (p := fun s => s.mem.read a) (e := .mem) (fun _ _ _ _ _ _ _ => rfl)
    (fun _ _ hs => congrArg (Memory.read · a) hs) h hne
  cases i with
  | ldBVx x =>
    obtain ⟨hle, rfl⟩ := hc
    refine .inl ⟨x, hr, ?_⟩
    by_contra hout
    refine hne ((Memory.read_writeList hwf ?_ a).trans (dif_neg ?_))
    · rw [length_bcdDigits, memSize]; omega
    · rw [length_bcdDigits, State.fetched_i]; omega
  | ldMemVx x =>
    obtain ⟨hle, rfl⟩ := hc
    refine .inr ⟨x, hr, ?_⟩
    by_contra hout
    rw [IndexMemory.mem_advanceI] at hne
    exact hne ((read_storeRegs hwf (by rw [memSize]; omega) a).trans (dif_neg hout))
  | _ => simp [writes] at hw

/-- Settles O17: of the instructions that write registers, each leaves those outside its destination and VF alone. -/
theorem registersWrittenOnlyBy : Obligations.RegistersWrittenOnlyBy := by
  unfold Obligations.RegistersWrittenOnlyBy
  intro s t h r hne
  obtain ⟨i, hr, hw, hc⟩ := runs_of_not_same (p := fun s => s.getV r) (e := .v) (fun _ _ _ _ _ _ _ => rfl)
    (fun s _ hs => s.getV_congr hs r) h hne
  refine ⟨i, hr, ?_⟩
  cases i with
  | ldImm | addImm | ldReg | orReg | andReg | xorReg | rnd | ldVxDt =>
    cases hc
    by_contra hx
    exact hne (Alu.getV_setV_of_ne _ _ hx)
  | addReg | sub | shr | subn | shl =>
    cases hc
    by_contra hx
    obtain ⟨hx, hF⟩ := not_or.1 hx
    exact hne (Alu.getV_writeWithFlag_of_ne _ _ _ hx hF)
  | ldVxK x =>
    by_contra hx
    rcases hc with ⟨k, -, -, rfl⟩ | ⟨-, rfl⟩
    · exact hne (Alu.getV_setV_of_ne _ _ hx)
    · exact hne rfl
  | addIVx x =>
    by_contra hx
    rcases hc with ⟨-, rfl⟩ | ⟨-, rfl⟩
    · exact hne (Alu.getV_setV_of_ne _ _ hx)
    · exact hne rfl
  | drw x y n =>
    obtain ⟨-, rfl⟩ := hc
    by_contra hx
    exact hne (Alu.getV_setV_of_ne _ _ hx)
  | ldVxMem x =>
    obtain ⟨-, rfl⟩ := hc
    by_contra hx
    rw [IndexMemory.getV_advanceI, getV_loadRegs, if_neg hx] at hne
    exact hne rfl
  | _ => simp [writes] at hw

/-! ### The rest of the state block (R19, R25, R27 to R29, R35) -/

/-- FX55 and FX65 move I under quirk_index_increment only. -/
theorem advanceI_of_not_increment {x : Reg} (h : s.cfg.indexIncrement = false) : (s.advanceI x).i = s.i := by
  rw [State.advanceI_eq, h]
  rfl

theorem index_written_by (h : step s = .next t) (hne : t.i ≠ s.i) :
    (∃ nnn, Runs s (.ldI nnn)) ∨ (∃ x, Runs s (.addIVx x)) ∨ (∃ x, Runs s (.ldFVx x)) ∨
      ((∃ x, Runs s (.ldMemVx x) ∨ Runs s (.ldVxMem x)) ∧ s.cfg.indexIncrement = true) := by
  obtain ⟨i, hr, hw, hc⟩ :=
    runs_of_not_same (p := State.i) (e := .i) (fun _ _ _ _ _ _ _ => rfl) (fun _ _ hs => hs) h hne
  cases i with
  | ldI nnn => exact .inl ⟨nnn, hr⟩
  | addIVx x => exact .inr (.inl ⟨x, hr⟩)
  | ldFVx x => exact .inr (.inr (.inl ⟨x, hr⟩))
  | ldMemVx x =>
    obtain ⟨-, rfl⟩ := hc
    refine .inr (.inr (.inr ⟨⟨x, .inl hr⟩, ?_⟩))
    by_contra hq
    exact hne (advanceI_of_not_increment (Bool.eq_false_iff.2 hq))
  | ldVxMem x =>
    obtain ⟨-, rfl⟩ := hc
    refine .inr (.inr (.inr ⟨⟨x, .inr hr⟩, ?_⟩))
    by_contra hq
    rw [loadRegs_eq] at hne
    exact hne (advanceI_of_not_increment (Bool.eq_false_iff.2 hq))
  | _ => simp [writes] at hw

theorem stack_written_by (h : step s = .next t) (hne : t.stack ≠ s.stack) :
    (∃ nnn, Runs s (.call nnn)) ∨ Runs s .ret := by
  obtain ⟨i, hr, hw, -⟩ :=
    runs_of_not_same (p := State.stack) (e := .stack) (fun _ _ _ _ _ _ _ => rfl) (fun _ _ hs => hs) h hne
  cases i with
  | call nnn => exact .inl ⟨nnn, hr⟩
  | ret => exact .inr hr
  | _ => simp [writes] at hw

theorem dt_written_by (h : step s = .next t) (hne : t.dt ≠ s.dt) : ∃ x, Runs s (.ldDtVx x) := by
  obtain ⟨i, hr, hw, -⟩ :=
    runs_of_not_same (p := State.dt) (e := .dt) (fun _ _ _ _ _ _ _ => rfl) (fun _ _ hs => hs) h hne
  cases i with
  | ldDtVx x => exact ⟨x, hr⟩
  | _ => simp [writes] at hw

theorem st_written_by (h : step s = .next t) (hne : t.st ≠ s.st) : ∃ x, Runs s (.ldStVx x) := by
  obtain ⟨i, hr, hw, -⟩ :=
    runs_of_not_same (p := State.st) (e := .st) (fun _ _ _ _ _ _ _ => rfl) (fun _ _ hs => hs) h hne
  cases i with
  | ldStVx x => exact ⟨x, hr⟩
  | _ => simp [writes] at hw

theorem fb_written_by (h : step s = .next t) (hne : t.fb ≠ s.fb) : Runs s .cls ∨ ∃ x y n, Runs s (.drw x y n) := by
  obtain ⟨i, hr, hw, -⟩ :=
    runs_of_not_same (p := State.fb) (e := .fb) (fun _ _ _ _ _ _ _ => rfl) (fun _ _ hs => hs) h hne
  cases i with
  | cls => exact .inl hr
  | drw x y n => exact .inr ⟨x, y, n, hr⟩
  | _ => simp [writes] at hw

/-- The diagnostic record is written by no instruction: only by an unrecognized word under UNKNOWN_OP = nop (R35, R78). -/
theorem unknown_written_by (h : step s = .next t) (hne : t.unkSeen ≠ s.unkSeen ∨ t.unkLast ≠ s.unkLast) :
    (∃ e, s.decoded = .error e) ∧ s.cfg.unknownOp = .nop := by
  obtain ⟨-, ⟨-, rfl⟩ | ⟨-, -, rfl⟩ | ⟨i, -, hc, -⟩ | ⟨i, c, info, -, -, -, rfl⟩ | ⟨-, -, he, hn, -⟩ |
    ⟨-, -, -, -, rfl⟩⟩ := step_effect h
  · exact hne.elim (absurd rfl) (absurd rfl)
  · exact hne.elim (absurd rfl) (absurd rfl)
  · have hseen : t.unkSeen = (s.fetched (isDraw i)).unkSeen :=
      eq_of_completed (p := State.unkSeen) (fun _ _ _ => rfl) hc
    have hlast : t.unkLast = (s.fetched (isDraw i)).unkLast :=
      eq_of_completed (p := State.unkLast) (fun _ _ _ => rfl) hc
    exact hne.elim (absurd hseen) (absurd hlast)
  · exact hne.elim (absurd rfl) (absurd rfl)
  · exact ⟨he, hn⟩
  · exact hne.elim (absurd rfl) (absurd rfl)

/-- Settles O18, an element at a time. -/
theorem specialStateWrittenOnlyBy : Obligations.SpecialStateWrittenOnlyBy := by
  unfold Obligations.SpecialStateWrittenOnlyBy
  exact fun s t h => ⟨index_written_by h, stack_written_by h, dt_written_by h, st_written_by h, fb_written_by h,
    unknown_written_by h⟩

/-! ### `dirty` and `drew` (R33) -/

theorem isDraw_iff : isDraw i = true ↔ ∃ x y n, i = .drw x y n := by
  cases i <;> simp [isDraw]

/-- CLS and DXYN raise `dirty`, every other instruction leaves it alone. -/
theorem dirty_iff_of_completed (h : Completed i s t) :
    t.dirty = true ↔ s.dirty = true ∨ i = .cls ∨ ∃ x y n, i = .drw x y n := by
  by_cases hw : .dirty ∈ writes i
  · cases i with
    | cls => cases h; simp
    | drw x y n => obtain ⟨-, rfl⟩ := h; simp
    | _ => simp [writes] at hw
  · have hsame : t.dirty = s.dirty := (congrArg State.dirty (eq_overwrite h)).trans (if_neg hw)
    rw [hsame]
    cases i with
    | cls | drw => simp [writes] at hw
    | _ => simp

/-- Settles O14: a step without a fault ran an instruction to completion or skipped an unrecognized word. -/
theorem dirtyAndDrewAfterStep : Obligations.DirtyAndDrewAfterStep := by
  unfold Obligations.DirtyAndDrewAfterStep
  intro s t hf h ht
  obtain ⟨-, ⟨hhalt, -⟩ | ⟨-, -, rfl⟩ | ⟨i, ⟨-, -, -, hd⟩, hc, -⟩ | ⟨i, c, info, -, -, hne, rfl⟩ |
    ⟨-, -, ⟨e, hd⟩, -, rfl⟩ | ⟨-, -, -, -, rfl⟩⟩ := step_effect h
  · exact absurd hf hhalt
  · cases ht
  · have hdrew : t.drew = isDraw i := eq_of_completed (p := State.drew) (fun _ _ _ => rfl) hc
    rw [hdrew, hd, isDraw_iff, dirty_iff_of_completed hc]
    simp only [Except.ok.injEq, State.fetched_dirty, and_self]
  · exact absurd ht hne
  · rw [hd]
    simp [skippedUnknown]
  · cases ht

end Sys2Proof.Proofs.Writes
end

section
/-! The reset state as a construction (10_state.md R39); and the invariant of the core and of a run (R20, R23, R25, R34 to
R37; 60_exceptions.md R131): at construction, across a step, across every operation of the host, and so at every point of
every run. -/

namespace Sys2Proof.Proofs.Invariant

open Sys2Proof Sys2Proof.Machine Sys2Proof.Safety

variable {s t : State} {i : Instr}

/-! ### Construction (R39, R47) -/

/-- The conventional font is what unlisted memory reads as, so that writing it lists nothing. -/
theorem reset_eq_construct : State.reset = State.construct {} conventionalFont := by
  decide

/-- Settles O2: the reset state by `reset_eq_construct`, its configuration and font bytes by evaluation. -/
theorem resetIsConstructed : Obligations.ResetIsConstructed := by
  unfold Obligations.ResetIsConstructed
  exact ⟨reset_eq_construct, rfl, rfl⟩

theorem inv_construct (cfg : Config) (font : Vector Byte 80) : Inv (State.construct cfg font) where
  memWf := StateBlock.wf_construct cfg font
  stackBound := Nat.zero_le _
  stackEntries := nofun
  indexBound := Nat.zero_le _
  pcBound := Nat.le_of_ble_eq_true rfl
  noFaultEmpty := fun _ => rfl
  noUnknownYet := fun _ => rfl
  notLoadedYet := fun _ => ⟨rfl, rfl⟩

theorem inv_reset : Inv State.reset := reset_eq_construct ▸ inv_construct {} conventionalFont

theorem sessionInv_construct (cfg : Config) (font : Vector Byte 80) : SessionInv (Session.construct cfg font) where
  core := inv_construct cfg font
  loadedIssued := nofun
  owedDrew := nofun

/-- Settles O3: what R39 gives meets every bound, and the reset state is a construction. -/
theorem invariantAtConstruction : Obligations.InvariantAtConstruction := by
  unfold Obligations.InvariantAtConstruction
  exact ⟨inv_reset, sessionInv_construct⟩

/-! ### The bounds across an instruction, an element at a time

An element that the instruction does not write keeps its bound; the cases are the instructions that write it. -/

theorem memWf_of_completed (h : Completed i s t) (hwf : s.mem.wf = true) : t.mem.wf = true := by
  by_cases hsame : t.mem = s.mem
  · rwa [hsame]
  have hw := Writes.mem_writes_of_not_same (e := .mem) h hsame
  cases i with
  | ldBVx x =>
    obtain ⟨hle, rfl⟩ := h
    exact Memory.wf_writeList hwf (by rw [Writes.length_bcdDigits, memSize]; omega)
  | ldMemVx x =>
    obtain ⟨hle, rfl⟩ := h
    rw [IndexMemory.mem_advanceI]
    exact wf_storeRegs hwf (by rw [memSize]; omega)
  | _ => simp [Writes.writes] at hw

/-- The stack holds at most 16 return addresses (R25), each of at most 0x1000 (R23). -/
def StackBounded (st : List Word) : Prop := st.length ≤ stackDepth ∧ ∀ a ∈ st, a.toNat ≤ 0x1000

/-- CALL pushes pc, RET drops the top. -/
theorem stackBounded_of_completed (h : Completed i s t) (hst : StackBounded s.stack) (hpc : s.pc.toNat ≤ 0x1000) :
    StackBounded t.stack := by
  by_cases hsame : t.stack = s.stack
  · rwa [hsame]
  have hw := Writes.mem_writes_of_not_same (e := .stack) h hsame
  obtain ⟨hlen, hall⟩ := hst
  cases i with
  | ret =>
    obtain ⟨st, a, hst, rfl⟩ := h
    rw [hst, List.length_append] at hlen
    exact ⟨(Nat.le_add_right _ _).trans hlen, fun b hb => hall b (hst ▸ List.mem_append_left _ hb)⟩
  | call nnn =>
    obtain ⟨hlt, rfl⟩ := h
    refine ⟨by rw [List.length_append]; exact hlt, fun b hb => ?_⟩
    rcases List.mem_append.1 hb with hb | hb
    · exact hall b hb
    · rwa [List.mem_singleton.1 hb]
  | _ => simp [Writes.writes] at hw

/-- FX55 and FX65 reach at most the byte at 0x0FFF, so that I + X + 1 is at most 0x1000 (R20). -/
theorem advanceI_le {x : Reg} (h : s.i.toNat + x.val ≤ 0x0FFF) : (s.advanceI x).i.toNat ≤ 0x1000 := by
  rw [IndexMemory.toNat_advanceI_i]
  split <;> omega

/-- I is at most 0x1000 (R20): a sum above 0x0FFF is masked. -/
theorem indexBound_of_completed (h : Completed i s t) (hi : s.i.toNat ≤ 0x1000) : t.i.toNat ≤ 0x1000 := by
  by_cases hsame : t.i = s.i
  · rwa [hsame]
  have hw := Writes.mem_writes_of_not_same (e := .i) h hsame
  cases i with
  | ldI nnn =>
    cases h
    have := nnn.isLt
    rw [State.setI_i, toNat_zextAddr]
    omega
  | addIVx x =>
    rcases h with ⟨-, rfl⟩ | ⟨hle, rfl⟩
    · rw [State.setV_i, State.setI_i, IndexMemory.toNat_and_0FFF]
      omega
    · exact hle.trans (by decide)
  | ldFVx x =>
    cases h
    have := (s.getV x).isLt
    rw [State.setI_i, IndexMemory.toNat_glyphAddr]
    omega
  | ldMemVx x => obtain ⟨hle, rfl⟩ := h; exact advanceI_le hle
  | ldVxMem x =>
    obtain ⟨hle, rfl⟩ := h
    rw [loadRegs_eq]
    exact advanceI_le hle
  | _ => simp [Writes.writes] at hw

theorem skipIf_le (h : s.pc.toNat ≤ 0x1000) (c : Bool) : (s.skipIf c).pc.toNat ≤ 0x10FE := by
  rw [State.skipIf_eq]
  split <;> bv_omega

theorem offsetTarget_le (s : State) (nnn : Addr12) (r : Reg) : (offsetTarget s nnn r).toNat ≤ 0x10FE := by
  have := nnn.isLt
  have := (s.getV r).isLt
  rw [toNat_offsetTarget]
  omega

theorem zextAddr_le (nnn : Addr12) : (zextAddr nnn).toNat ≤ 0x10FE := by
  have := nnn.isLt
  rw [toNat_zextAddr]
  omega

/-- pc is at most 0x10FE, the highest target of a jump with offset (R23). FX0A moves it back by 2, so that the state must
be one with an instruction behind pc. -/
theorem pcBound_of_completed (h : Completed i s t) (hst : ∀ a ∈ s.stack, a.toNat ≤ 0x1000) (hlo : 2 ≤ s.pc.toNat)
    (hhi : s.pc.toNat ≤ 0x1000) : t.pc.toNat ≤ 0x10FE := by
  cases i with
  | ret =>
    obtain ⟨st, a, hs, rfl⟩ := h
    exact (hst a (hs ▸ List.mem_append_right _ List.mem_cons_self)).trans (by decide)
  | jp nnn => cases h; exact zextAddr_le nnn
  | call nnn => obtain ⟨-, rfl⟩ := h; exact zextAddr_le nnn
  | jpV0 nnn => cases h; exact offsetTarget_le s nnn 0
  | jpVx x nnn => cases h; exact offsetTarget_le s nnn x
  | seImm | sneImm | seReg | sneReg => cases h; exact skipIf_le hhi _
  | skp x => obtain ⟨k, -, rfl⟩ := h; exact skipIf_le hhi _
  | sknp x => obtain ⟨k, -, rfl⟩ := h; exact skipIf_le hhi _
  | ldVxK x =>
    rcases h with ⟨k, -, -, rfl⟩ | ⟨-, rfl⟩
    · exact hhi.trans (by decide)
    · rw [State.setPc_pc]
      bv_omega
  | _ =>
    rw [StateBlock.pc_eq_of_setsPc_eq_false h rfl]
    exact hhi.trans (by decide)

/-! ### The step -/

/-- A fetch inside memory leaves pc from 2 to 0x1000 (R49, R74). -/
theorem toNat_pc_add_two (hc : s.canFetch = true) : (s.pc + 2).toNat = s.pc.toNat + 2 ∧ s.pc.toNat + 2 ≤ 0x1000 := by
  have := canFetch_iff.1 hc
  constructor <;> bv_omega

/-- A fault writes the record only (R77), and not an empty one. -/
theorem inv_of_fault (h : Inv s) (hl : s.loaded = true) {f : FaultRecord} (hf : f.code ≠ .noFault) :
    Inv { s with fault := f } :=
  { h with
    noFaultEmpty := fun hnone => absurd hnone hf
    notLoadedYet := fun hn => absurd (hl.symm.trans hn) nofun }

theorem inv_of_completed (h : Inv s) (hr : Runs s i) (hc : Completed i (s.fetched (isDraw i)) t)
    (hfault : t.fault = s.fault) : Inv t := by
  obtain ⟨hl, -, hfetch, -⟩ := hr
  obtain ⟨hpc, hle⟩ := toNat_pc_add_two hfetch
  have hlo : 2 ≤ (s.fetched (isDraw i)).pc.toNat := by rw [State.fetched_pc, hpc]; omega
  have hhi : (s.fetched (isDraw i)).pc.toNat ≤ 0x1000 := by rw [State.fetched_pc, hpc]; exact hle
  have hstack : StackBounded t.stack := stackBounded_of_completed hc ⟨h.stackBound, h.stackEntries⟩ hhi
  have hseen : t.unkSeen = (s.fetched (isDraw i)).unkSeen :=
    Writes.eq_of_completed (p := State.unkSeen) (fun _ _ _ => rfl) hc
  have hlast : t.unkLast = (s.fetched (isDraw i)).unkLast :=
    Writes.eq_of_completed (p := State.unkLast) (fun _ _ _ => rfl) hc
  have hloaded : t.loaded = (s.fetched (isDraw i)).loaded :=
    Writes.eq_of_completed (p := State.loaded) (fun _ _ _ => rfl) hc
  exact {
    memWf := memWf_of_completed hc h.memWf
    stackBound := hstack.1
    stackEntries := hstack.2
    indexBound := indexBound_of_completed hc h.indexBound
    pcBound := pcBound_of_completed hc h.stackEntries hlo hhi
    noFaultEmpty := by rw [hfault]; exact h.noFaultEmpty
    noUnknownYet := by rw [hseen, hlast]; exact h.noUnknownYet
    notLoadedYet := fun hn => absurd (hl.symm.trans (hloaded.symm.trans hn)) nofun }

/-- An unrecognized word under UNKNOWN_OP = nop moves pc past it and is recorded (R78). -/
theorem inv_skippedUnknown (h : Inv s) (hl : s.loaded = true) (hc : s.canFetch = true) : Inv (skippedUnknown s) :=
  { h with
    pcBound := by
      obtain ⟨hpc, hle⟩ := toNat_pc_add_two hc
      show (s.pc + 2).toNat ≤ 0x10FE
      omega
    noUnknownYet := nofun
    notLoadedYet := fun hn => absurd (hl.symm.trans hn) nofun }

/-- Settles O4, by the branches of `step_effect`. -/
theorem stepKeepsInvariant : Obligations.StepKeepsInvariant := by
  unfold Obligations.StepKeepsInvariant
  intro s t h hstep
  obtain ⟨hl, ⟨-, rfl⟩ | ⟨-, -, rfl⟩ | ⟨i, hr, hc, hfault⟩ | ⟨i, c, info, -, -, hne, rfl⟩ | ⟨-, hc, -, -, rfl⟩ |
    ⟨-, -, -, -, rfl⟩⟩ := step_effect hstep
  · exact h
  · exact inv_of_fault h hl nofun
  · exact inv_of_completed h hr hc hfault
  · exact inv_of_fault h hl hne
  · exact inv_skippedUnknown h hl hc
  · exact inv_of_fault h hl nofun

/-! ### The operations of the host -/

/-- Tick, the key events and ClearDirty write elements without a bound (R126, R129, R130). -/
theorem inv_of_host_write (h : Inv s) (dt st : Byte) (key : Vector Bool 16) (dirty : Bool) :
    Inv { s with dt := dt, st := st, key := key, dirty := dirty } :=
  { h with }

/-- A Load that succeeds writes inside memory and sets `loaded`; one that fails changes nothing (R56). -/
theorem inv_load (h : Inv s) (image : Image) : Inv (s.load image).2 := by
  rcases load_cases s image with hfail | ⟨bs, -, hlen, hok⟩
  · rwa [hfail]
  · rw [hok]
    exact { h with
      memWf := Memory.wf_writeList h.memWf (by simp only [loadBase, memSize, maxRom] at hlen ⊢; omega)
      notLoadedYet := nofun }

/-- Load keeps the configuration and `drew`. -/
theorem load_cfg_drew (s : State) (image : Image) : (s.load image).2.cfg = s.cfg ∧ (s.load image).2.drew = s.drew := by
  rcases load_cases s image with hfail | ⟨bs, -, -, hok⟩
  · rw [hfail]; exact ⟨rfl, rfl⟩
  · rw [hok]; exact ⟨rfl, rfl⟩

/-- Settles O59, an operation at a time: a Load and a Step write the host's record, and no other operation writes
an element that the invariant looks at, but that a Tick meets the one that is due. -/
theorem operationsKeepInvariant : Obligations.OperationsKeepInvariant := by
  unfold Obligations.OperationsKeepInvariant
  intro op r q response h hperform
  obtain ⟨hadm, t, heff, rfl⟩ := perform_cases hperform
  obtain ⟨hinv, hissued, howed⟩ := h
  rcases effect_cases heff with ⟨image, rfl, rfl⟩ | ⟨rfl, hstep⟩ | ⟨rfl, rfl⟩ | ⟨k, rfl, rfl⟩ | ⟨k, rfl, rfl⟩ |
    ⟨rfl, rfl⟩ | ⟨rfl | rfl | rfl, rfl⟩
  · obtain ⟨hcfg, hdrew⟩ := load_cfg_drew r.core image
    refine ⟨inv_load hinv image, fun _ => rfl, fun ho => ?_⟩
    rw [Session.after_core, hcfg, hdrew]
    exact howed ho
  · refine ⟨stepKeepsInvariant r.core t hinv hstep, fun _ => ?_, fun ho => ?_⟩
    · exact hissued (Session.admits_step.1 hadm).1
    · exact Bool.and_eq_true_iff.1 ho
  · exact ⟨inv_of_host_write hinv _ _ _ _, hissued, nofun⟩
  · exact ⟨inv_of_host_write hinv _ _ _ _, hissued, howed⟩
  · exact ⟨inv_of_host_write hinv _ _ _ _, hissued, howed⟩
  · exact ⟨inv_of_host_write hinv _ _ _ _, hissued, howed⟩
  · exact ⟨hinv, hissued, howed⟩
  · exact ⟨hinv, hissued, howed⟩
  · exact ⟨hinv, hissued, howed⟩

/-- Settles O5, by induction on the operations that led to the point. -/
theorem reachableStatesSatisfyInvariant : Obligations.ReachableStatesSatisfyInvariant := by
  unfold Obligations.ReachableStatesSatisfyInvariant
  intro r hr
  induction hr with
  | construct cfg font => exact sessionInv_construct cfg font
  | operation op r q response _ hperform ih => exact operationsKeepInvariant op r q response ih hperform

end Sys2Proof.Proofs.Invariant
end

section
/-! The statements of 30_encoding.md on the decoder and the encoder together: the round trip of every well-formed instruction
(R60 to R64), the inverse in strict mode (R63) and the unrecognized words (R69). -/

namespace Sys2Proof.Proofs.RoundTrip

open Sys2Proof Sys2Proof.Proofs.Encoding

variable {mode : DecodeMode} {j : Bool} {w : Word} {i : Instr}

/-! ### Decoding an encoding -/

/-- X of BXNN, which the encoder does not write since it is part of NNN (R71). -/
theorem fieldX_of_topNibbleIs {x : Reg} {nnn : Addr12} (h : topNibbleIs x nnn = true) (f : Nibble) :
    fieldX (wordNNN f nnn) = x := by
  rw [fieldX_wordNNN, eq_of_beq h, BitVec.toFin_ofFin]

/-- The word of a well-formed instruction decodes to it: its family's row, with the fields the encoder assembled. -/
theorem decodeWord_encode (mode : DecodeMode) (hwf : i.wellFormed = true) (hsel : i.selected j = true) :
    decodeWord mode j (encode i) = .ok i := by
  cases i with
  | cls | ret => cases mode <;> rfl
  | jp => simp [encode, decodeWord_family1]
  | call => simp [encode, decodeWord_family2]
  | seImm => simp [encode, decodeWord_family3]
  | sneImm => simp [encode, decodeWord_family4]
  | seReg => simp [encode, decodeWord_family5, decodeXY0_of_fieldN]
  | ldImm => simp [encode, decodeWord_family6]
  | addImm => simp [encode, decodeWord_family7]
  | ldReg => simp [encode, decodeWord_family8, decodeFamily8_ldReg]
  | orReg => simp [encode, decodeWord_family8, decodeFamily8_orReg]
  | andReg => simp [encode, decodeWord_family8, decodeFamily8_andReg]
  | xorReg => simp [encode, decodeWord_family8, decodeFamily8_xorReg]
  | addReg => simp [encode, decodeWord_family8, decodeFamily8_addReg]
  | sub => simp [encode, decodeWord_family8, decodeFamily8_sub]
  | shr => simp [encode, decodeWord_family8, decodeFamily8_shr]
  | subn => simp [encode, decodeWord_family8, decodeFamily8_subn]
  | shl => simp [encode, decodeWord_family8, decodeFamily8_shl]
  | sneReg => simp [encode, decodeWord_family9, decodeXY0_of_fieldN]
  | ldI => simp [encode, decodeWord_familyA]
  | jpV0 nnn =>
    obtain rfl : j = false := Bool.not_eq_eq_eq_not.1 hsel
    simp [encode, decodeWord_familyB, decodeFamilyB]
  | jpVx x nnn =>
    obtain rfl : j = true := hsel
    have hX : fieldX (wordNNN 0xB nnn) = x := fieldX_of_topNibbleIs hwf 0xB
    rw [encode, decodeWord_familyB (fieldF_wordNNN _ _), decodeFamilyB, if_pos rfl, hX, fieldNNN_wordNNN]
  | rnd => simp [encode, decodeWord_familyC]
  | drw => simp [encode, decodeWord_familyD]
  | skp => simp [encode, decodeWord_familyE, decodeFamilyE_skp]
  | sknp => simp [encode, decodeWord_familyE, decodeFamilyE_sknp]
  | ldVxDt => simp [encode, decodeWord_familyF, decodeFamilyF_ldVxDt]
  | ldVxK => simp [encode, decodeWord_familyF, decodeFamilyF_ldVxK]
  | ldDtVx => simp [encode, decodeWord_familyF, decodeFamilyF_ldDtVx]
  | ldStVx => simp [encode, decodeWord_familyF, decodeFamilyF_ldStVx]
  | addIVx => simp [encode, decodeWord_familyF, decodeFamilyF_addIVx]
  | ldFVx => simp [encode, decodeWord_familyF, decodeFamilyF_ldFVx]
  | ldBVx => simp [encode, decodeWord_familyF, decodeFamilyF_ldBVx]
  | ldMemVx => simp [encode, decodeWord_familyF, decodeFamilyF_ldMemVx]
  | ldVxMem => simp [encode, decodeWord_familyF, decodeFamilyF_ldVxMem]

/-- Settles O21: the two bytes of an encoding are its word again, and that word decodes to the instruction. -/
theorem decodeOfEncode : Obligations.DecodeOfEncode := by
  unfold Obligations.DecodeOfEncode
  intro mode j i rest hwf hsel
  have hword : decodeWord mode j (wordOfBytes ((encode i).extractLsb' 8 8) ((encode i).extractLsb' 0 8)) = .ok i := by
    rw [wordOfBytes_bytes, decodeWord_encode mode hwf hsel]
  simp only [encodeBytes, bytesOfWord, List.cons_append, List.nil_append, decodeBytes, hword]

/-! ### What strict mode decodes is an encoding (R63) -/

/-- A word assembled from the fields a row fixes and those it reads is the word they came from. -/
theorem wordNNN_of_fieldF {f : Nibble} (hF : fieldF w = f) : wordNNN f (fieldNNN w) = w := by
  rw [← hF, ← eq_wordNNN]

theorem wordXNN_of_fieldF {f : Nibble} (hF : fieldF w = f) : wordXNN f (fieldX w) (fieldNN w) = w := by
  rw [← hF, ← eq_wordXNN]

theorem wordXYN_of_fields {f n : Nibble} (hF : fieldF w = f) (hN : fieldN w = n) :
    wordXYN f (fieldX w) (fieldY w) n = w := by
  rw [← hF, ← hN, ← eq_wordXYN]

theorem wordXNN_of_fields {f : Nibble} {nn : Byte} (hF : fieldF w = f) (hNN : fieldNN w = nn) :
    wordXNN f (fieldX w) nn = w := by
  rw [← hNN, wordXNN_of_fieldF hF]

/-- X of any word is the top nibble of its NNN (R71). -/
theorem topNibbleIs_fields (w : Word) : topNibbleIs (fieldX w) (fieldNNN w) = true := by
  have hX : fieldX w = ((fieldNNN w).extractLsb' 8 4).toFin :=
    (congrArg fieldX (eq_wordNNN w)).trans (fieldX_wordNNN _ _)
  rw [topNibbleIs, hX, BitVec.ofFin_toFin, beq_self_eq_true]

/-- `w` is the word of `i`, a well-formed instruction of a row that quirk_jump_offset selects. -/
def IsWordOf (j : Bool) (w : Word) (i : Instr) : Prop :=
  i.wellFormed = true ∧ i.selected j = true ∧ encode i = w

/-- One test of the decoder: the row it selects, or the rest of the decoder. -/
theorem isWordOf_of_ite {p : Prop} [Decidable p] {row : Instr} {d : Except DecodeReject Instr}
    (hrow : p → IsWordOf j w row) (hd : d = .ok i → IsWordOf j w i) :
    (if p then .ok row else d) = .ok i → IsWordOf j w i := by
  split
  next hp => rintro ⟨⟩; exact hrow hp
  next => exact hd

theorem isWordOf_of_decodeFamily0 : decodeFamily0 .strict w = .ok i → IsWordOf j w i :=
  isWordOf_of_ite (fun hw => ⟨rfl, rfl, hw.symm⟩) (isWordOf_of_ite (fun hw => ⟨rfl, rfl, hw.symm⟩) nofun)

theorem isWordOf_of_decodeXY0 {row : Instr} {why : DecodeReject} (hrow : fieldN w = 0x0 → IsWordOf j w row) :
    decodeXY0 .strict w row why = .ok i → IsWordOf j w i :=
  isWordOf_of_ite hrow nofun

theorem isWordOf_of_decodeFamily8 (hF : fieldF w = 0x8) (h : decodeFamily8 w = .ok i) : IsWordOf j w i := by
  rw [decodeFamily8] at h
  split at h
  case h_10 => cases h
  all_goals
    next hN => cases h; exact ⟨rfl, rfl, wordXYN_of_fields hF (BitVec.eq_of_toNat_eq hN)⟩

theorem isWordOf_decodeFamilyB (hF : fieldF w = 0xB) : IsWordOf j w (decodeFamilyB j w) := by
  cases j with
  | false => exact ⟨rfl, rfl, wordNNN_of_fieldF hF⟩
  | true => exact ⟨topNibbleIs_fields w, rfl, wordNNN_of_fieldF hF⟩

theorem isWordOf_of_decodeFamilyE (hF : fieldF w = 0xE) : decodeFamilyE w = .ok i → IsWordOf j w i :=
  isWordOf_of_ite (fun hNN => ⟨rfl, rfl, wordXNN_of_fields hF hNN⟩)
    (isWordOf_of_ite (fun hNN => ⟨rfl, rfl, wordXNN_of_fields hF hNN⟩) nofun)

theorem isWordOf_of_decodeFamilyF (hF : fieldF w = 0xF) : decodeFamilyF w = .ok i → IsWordOf j w i := by
  rw [decodeFamilyF]
  iterate 9 refine isWordOf_of_ite (fun hNN => ⟨rfl, rfl, wordXNN_of_fields hF hNN⟩) ?_
  exact nofun

/-- The sixteen families. -/
theorem fieldF_cases (w : Word) : fieldF w = 0x0 ∨ fieldF w = 0x1 ∨ fieldF w = 0x2 ∨ fieldF w = 0x3 ∨ fieldF w = 0x4 ∨
    fieldF w = 0x5 ∨ fieldF w = 0x6 ∨ fieldF w = 0x7 ∨ fieldF w = 0x8 ∨ fieldF w = 0x9 ∨ fieldF w = 0xA ∨
    fieldF w = 0xB ∨ fieldF w = 0xC ∨ fieldF w = 0xD ∨ fieldF w = 0xE ∨ fieldF w = 0xF := by
  generalize fieldF w = f
  revert f
  decide

/-- A word that strict mode decodes is the word of that instruction. -/
theorem isWordOf_of_decodeWord_strict (h : decodeWord .strict j w = .ok i) : IsWordOf j w i := by
  rcases fieldF_cases w with hF | hF | hF | hF | hF | hF | hF | hF | hF | hF | hF | hF | hF | hF | hF | hF
  · exact isWordOf_of_decodeFamily0 ((decodeWord_family0 hF).symm.trans h)
  · cases (decodeWord_family1 hF).symm.trans h
    exact ⟨rfl, rfl, wordNNN_of_fieldF hF⟩
  · cases (decodeWord_family2 hF).symm.trans h
    exact ⟨rfl, rfl, wordNNN_of_fieldF hF⟩
  · cases (decodeWord_family3 hF).symm.trans h
    exact ⟨rfl, rfl, wordXNN_of_fieldF hF⟩
  · cases (decodeWord_family4 hF).symm.trans h
    exact ⟨rfl, rfl, wordXNN_of_fieldF hF⟩
  · exact isWordOf_of_decodeXY0 (row := .seReg _ _) (fun hN => ⟨rfl, rfl, wordXYN_of_fields hF hN⟩)
      ((decodeWord_family5 hF).symm.trans h)
  · cases (decodeWord_family6 hF).symm.trans h
    exact ⟨rfl, rfl, wordXNN_of_fieldF hF⟩
  · cases (decodeWord_family7 hF).symm.trans h
    exact ⟨rfl, rfl, wordXNN_of_fieldF hF⟩
  · exact isWordOf_of_decodeFamily8 hF ((decodeWord_family8 hF).symm.trans h)
  · exact isWordOf_of_decodeXY0 (row := .sneReg _ _) (fun hN => ⟨rfl, rfl, wordXYN_of_fields hF hN⟩)
      ((decodeWord_family9 hF).symm.trans h)
  · cases (decodeWord_familyA hF).symm.trans h
    exact ⟨rfl, rfl, wordNNN_of_fieldF hF⟩
  · cases (decodeWord_familyB hF).symm.trans h
    exact isWordOf_decodeFamilyB hF
  · cases (decodeWord_familyC hF).symm.trans h
    exact ⟨rfl, rfl, wordXNN_of_fieldF hF⟩
  · cases (decodeWord_familyD hF).symm.trans h
    exact ⟨rfl, rfl, wordXYN_of_fields hF rfl⟩
  · exact isWordOf_of_decodeFamilyE hF ((decodeWord_familyE hF).symm.trans h)
  · exact isWordOf_of_decodeFamilyF hF ((decodeWord_familyF hF).symm.trans h)

/-- Settles O22: what strict mode decodes is an encoding, and every encoding decodes. -/
theorem strictDecodeIsInverse : Obligations.StrictDecodeIsInverse := by
  unfold Obligations.StrictDecodeIsInverse
  refine fun j w i => ⟨isWordOf_of_decodeWord_strict, ?_⟩
  rintro ⟨hwf, hsel, rfl⟩
  exact decodeWord_encode .strict hwf hsel

/-! ### The unrecognized words (R69) -/

/-- One test of the decoder rejects when the test fails and the rest rejects. -/
theorem rejects_ite {p : Prop} [Decidable p] {row : Instr} {d : Except DecodeReject Instr} :
    (∃ e, (if p then .ok row else d) = .error e) ↔ ¬ p ∧ ∃ e, d = .error e := by
  split
  next hp => simp [hp]
  next hp => simp [hp]

theorem rejects_decodeFamily0_loose :
    (∃ e, decodeFamily0 .loose w = .error e) ↔ w.toNat % 16 ≠ 0x0 ∧ w.toNat % 16 ≠ 0xE := by
  rw [decodeFamily0, rejects_ite, rejects_ite, ← BitVec.toNat_inj, ← BitVec.toNat_inj, toNat_fieldN]
  simp

theorem rejects_decodeFamily0_strict : (∃ e, decodeFamily0 .strict w = .error e) ↔ w ≠ 0x00E0 ∧ w ≠ 0x00EE := by
  rw [decodeFamily0, rejects_ite, rejects_ite]
  simp

theorem rejects_decodeXY0 {why : DecodeReject} :
    (∃ e, decodeXY0 mode w i why = .error e) ↔ mode = .strict ∧ w.toNat % 16 ≠ 0 := by
  cases mode with
  | loose => simp [decodeXY0]
  | strict =>
    rw [decodeXY0, rejects_ite, ← BitVec.toNat_inj, toNat_fieldN]
    simp

theorem rejects_decodeFamily8 :
    (∃ e, decodeFamily8 w = .error e) ↔ w.toNat % 16 ∈ [0x8, 0x9, 0xA, 0xB, 0xC, 0xD, 0xF] := by
  rw [decodeFamily8, ← toNat_fieldN]
  split
  case h_10 =>
    have hlt : (fieldN w).toNat < 16 := (fieldN w).isLt
    simp only [imp_false] at *
    refine iff_of_true ⟨_, rfl⟩ ?_
    simp only [List.mem_cons, List.not_mem_nil, or_false]
    omega
  all_goals simp [*]

theorem rejects_decodeFamilyE :
    (∃ e, decodeFamilyE w = .error e) ↔ w.toNat % 256 ≠ 0x9E ∧ w.toNat % 256 ≠ 0xA1 := by
  rw [decodeFamilyE, rejects_ite, rejects_ite, ← BitVec.toNat_inj, ← BitVec.toNat_inj, toNat_fieldNN]
  simp

theorem rejects_decodeFamilyF : (∃ e, decodeFamilyF w = .error e) ↔
    w.toNat % 256 ∉ [0x07, 0x0A, 0x15, 0x18, 0x1E, 0x29, 0x33, 0x55, 0x65] := by
  simp only [decodeFamilyF, rejects_ite, ← BitVec.toNat_inj, toNat_fieldNN]
  simp

/-- The families in which words are rejected (R62, R63). -/
theorem rejects_decodeWord : (∃ e, decodeWord mode j w = .error e) ↔
    (fieldF w = 0x0 ∧ ∃ e, decodeFamily0 mode w = .error e) ∨
      ((fieldF w = 0x5 ∨ fieldF w = 0x9) ∧ mode = .strict ∧ w.toNat % 16 ≠ 0) ∨
      (fieldF w = 0x8 ∧ ∃ e, decodeFamily8 w = .error e) ∨ (fieldF w = 0xE ∧ ∃ e, decodeFamilyE w = .error e) ∨
      (fieldF w = 0xF ∧ ∃ e, decodeFamilyF w = .error e) := by
  rcases fieldF_cases w with hF | hF | hF | hF | hF | hF | hF | hF | hF | hF | hF | hF | hF | hF | hF | hF
  · simp [decodeWord_family0 hF, hF]
  · simp [decodeWord_family1 hF, hF]
  · simp [decodeWord_family2 hF, hF]
  · simp [decodeWord_family3 hF, hF]
  · simp [decodeWord_family4 hF, hF]
  · simp [decodeWord_family5 hF, hF, rejects_decodeXY0]
  · simp [decodeWord_family6 hF, hF]
  · simp [decodeWord_family7 hF, hF]
  · simp [decodeWord_family8 hF, hF]
  · simp [decodeWord_family9 hF, hF, rejects_decodeXY0]
  · simp [decodeWord_familyA hF, hF]
  · simp [decodeWord_familyB hF, hF]
  · simp [decodeWord_familyC hF, hF]
  · simp [decodeWord_familyD hF, hF]
  · simp [decodeWord_familyE hF, hF]
  · simp [decodeWord_familyF hF, hF]

theorem fieldF_eq_iff {f : Nibble} : fieldF w = f ↔ w.toNat / 4096 = f.toNat := by
  rw [← BitVec.toNat_inj, toNat_fieldF]

/-- Settles O24: the families that reject, each with the words it rejects. -/
theorem unrecognizedWords : Obligations.UnrecognizedWords := by
  unfold Obligations.UnrecognizedWords
  intro j w f n nn both
  constructor
  · simp only [rejects_decodeWord, fieldF_eq_iff, rejects_decodeFamily0_loose, rejects_decodeFamily8,
      rejects_decodeFamilyE, rejects_decodeFamilyF, reduceCtorEq, false_and, and_false, false_or]
    exact or_comm
  · simp only [rejects_decodeWord, fieldF_eq_iff, rejects_decodeFamily0_strict, rejects_decodeFamily8,
      rejects_decodeFamilyE, rejects_decodeFamilyF, true_and]
    tauto

/-- Settles O26: each word by evaluation. -/
theorem wordsDecode : Obligations.WordsDecode := by
  unfold Obligations.WordsDecode
  decide

end Sys2Proof.Proofs.RoundTrip
end

section
/-! The elements that no step reads: `opcode`, `dirty`, `drew`, the diagnostic record (10_state.md R32, R33, R35) and
quirk_draw_pacing (60_exceptions.md R131). -/

namespace Sys2Proof.Proofs.Noninterference

open Sys2Proof Sys2Proof.Machine Sys2Proof.Safety

variable {s t : State} {i : Instr} {c : FaultCode} {info : Option Nat}

/-! ### The converse of `step_effect` -/

/-- What an instruction that completes leaves is what `exec` answers. -/
theorem exec_of_completed (h : Completed i s t) : exec i s = .next t := by
  cases i with
  | ret => obtain ⟨st, a, hs, rfl⟩ := h; exact exec_ret_of_append s hs
  | call nnn => obtain ⟨hs, rfl⟩ := h; exact exec_call_of_lt s nnn hs
  | addIVx x =>
    rcases h with ⟨hs, rfl⟩ | ⟨hs, rfl⟩
    · exact exec_addIVx_of_gt s x hs
    · exact exec_addIVx_of_le s x hs
  | ldBVx x => obtain ⟨hs, rfl⟩ := h; exact exec_ldBVx_of_le s x hs
  | ldMemVx x => obtain ⟨hs, rfl⟩ := h; exact exec_ldMemVx_of_le s x hs
  | ldVxMem x => obtain ⟨hs, rfl⟩ := h; exact exec_ldVxMem_of_le s x hs
  | drw x y n => obtain ⟨hs, rfl⟩ := h; exact exec_drw_of_le s x y n hs
  | skp x => obtain ⟨k, hk, rfl⟩ := h; exact exec_skp_of_key s x hk
  | sknp x => obtain ⟨k, hk, rfl⟩ := h; exact exec_sknp_of_key s x hk
  | ldVxK x =>
    rcases h with ⟨k, hk, hl, rfl⟩ | ⟨hs, rfl⟩
    · exact exec_ldVxK_of_pressed s x hk hl
    · exact exec_ldVxK_of_none s x hs
  | _ => cases h; rfl

theorem exec_of_raises (h : Raises i s c info) : exec i s = .next (s.raise c info) := by
  cases i with
  | ret => obtain ⟨hs, rfl, rfl⟩ := h; exact exec_ret_of_nil s hs
  | call nnn => obtain ⟨hs, rfl, rfl⟩ := h; exact exec_call_of_ge s nnn hs
  | drw x y n => obtain ⟨hn, hs, rfl, rfl⟩ := h; exact exec_drw_of_gt s x y n hn hs
  | ldBVx x => obtain ⟨hs, rfl, rfl⟩ := h; exact exec_ldBVx_of_gt s x hs
  | ldMemVx x => obtain ⟨hs, rfl, rfl⟩ := h; exact exec_ldMemVx_of_gt s x hs
  | ldVxMem x => obtain ⟨hs, rfl, rfl⟩ := h; exact exec_ldVxMem_of_gt s x hs
  | skp x => obtain ⟨hs, rfl, rfl⟩ := h; exact exec_skp_of_ge s x hs
  | sknp x => obtain ⟨hs, rfl, rfl⟩ := h; exact exec_sknp_of_ge s x hs
  | _ => exact h.elim

theorem step_of_completed (hr : Runs s i) (h : Completed i (s.fetched (isDraw i)) t) : step s = .next t :=
  step_of_exec hr (exec_of_completed h) h.fault_eq

theorem step_of_raises (hr : Runs s i) (h : Raises i (s.fetched (isDraw i)) c info) : step s = .next (faulted s c info) :=
  step_of_raise hr h.ne_noFault (exec_of_raises h)

/-! ### Other values of the elements that are not read -/

/-- Values of the elements that no step reads. -/
structure Unread where
  drawPacing : Bool
  opcode : Word
  dirty : Bool
  drew : Bool
  unkSeen : Bool
  unkLast : Word

/-- The values a state has of them. -/
def unread (s : State) : Unread :=
  ⟨s.cfg.drawPacing, s.opcode, s.dirty, s.drew, s.unkSeen, s.unkLast⟩

/-- A state with other values of them. -/
def put (u : Unread) (s : State) : State :=
  { s with
    cfg := { s.cfg with drawPacing := u.drawPacing }
    opcode := u.opcode, dirty := u.dirty, drew := u.drew, unkSeen := u.unkSeen, unkLast := u.unkLast }

/-- The values after an instruction that completes: `dirty` is raised by CLS and DXYN, the others stay. -/
def Unread.after (i : Instr) (u : Unread) : Unread :=
  match i with
  | .cls | .drw _ _ _ => { u with dirty := true }
  | _ => u

variable {u : Unread}

theorem put_skipIf (s : State) (b : Bool) : put u (s.skipIf b) = (put u s).skipIf b := by
  cases b <;> rfl

theorem put_advanceI (s : State) (x : Reg) : put u (s.advanceI x) = (put u s).advanceI x := by
  rw [State.advanceI_eq, State.advanceI_eq]
  rfl

theorem put_loadRegs (s : State) (a : Nat) (x : Reg) : put u (loadRegs s a x) = loadRegs (put u s) a x := by
  unfold loadRegs
  induction regsUpTo x generalizing s with
  | nil => rfl
  | cons r l ih => exact ih (s.setV r _)

/-- An instruction completes alike whatever the unread elements hold. -/
theorem completed_put (h : Completed i s t) : Completed i (put u s) (put (u.after i) t) := by
  cases i with
  | ret => obtain ⟨st, a, hs, rfl⟩ := h; exact ⟨st, a, hs, rfl⟩
  | call nnn => obtain ⟨hs, rfl⟩ := h; exact ⟨hs, rfl⟩
  | seImm | sneImm | seReg | sneReg => cases h; exact put_skipIf s _
  | skp x => obtain ⟨k, hk, rfl⟩ := h; exact ⟨k, hk, put_skipIf s _⟩
  | sknp x => obtain ⟨k, hk, rfl⟩ := h; exact ⟨k, hk, put_skipIf s _⟩
  | addIVx x =>
    rcases h with ⟨hs, rfl⟩ | ⟨hs, rfl⟩
    · exact .inl ⟨hs, rfl⟩
    · exact .inr ⟨hs, rfl⟩
  | ldBVx x => obtain ⟨hs, rfl⟩ := h; exact ⟨hs, rfl⟩
  | ldMemVx x => obtain ⟨hs, rfl⟩ := h; exact ⟨hs, put_advanceI _ x⟩
  | ldVxMem x =>
    obtain ⟨hs, rfl⟩ := h
    exact ⟨hs, (put_advanceI _ x).trans (congrArg (State.advanceI · x) (put_loadRegs s _ x))⟩
  | drw x y n => obtain ⟨hs, rfl⟩ := h; exact ⟨hs, rfl⟩
  | ldVxK x =>
    rcases h with ⟨k, hk, hl, rfl⟩ | ⟨hs, rfl⟩
    · exact .inl ⟨k, hk, hl, rfl⟩
    · exact .inr ⟨hs, rfl⟩
  | _ => cases h; rfl

theorem raises_put (h : Raises i s c info) : Raises i (put u s) c info := by
  cases i <;> exact h

theorem runs_put (h : Runs s i) : Runs (put u s) i := h

/-- What an instruction that completes leaves in the unread elements. -/
theorem unread_of_completed (h : Completed i s t) : unread t = (unread s).after i := by
  cases i with
  | cls => cases h; rfl
  | drw x y n => obtain ⟨-, rfl⟩ := h; rfl
  | _ => exact (congrArg unread (Writes.eq_overwrite h)).trans rfl

theorem after_drawPacing (i : Instr) (u : Unread) (d : Bool) :
    Unread.after i { u with drawPacing := d } = { u.after i with drawPacing := d } := by
  cases i <;> rfl

/-! ### The step -/

/-- The fetch phase overwrites `opcode` and `drew` (R74, R80). -/
def Unread.fetched (s : State) (draw : Bool) (u : Unread) : Unread :=
  { u with opcode := s.fetchWord, drew := draw }

/-- A step goes alike whatever the unread elements hold: it leaves the same state but for them. Where they hold the state's
own values but for quirk_draw_pacing, it leaves the same values but for that. -/
theorem step_put (h : step s = .next t) (u : Unread) : ∃ u' : Unread, step (put u s) = .next (put u' t) ∧
    u'.drawPacing = u.drawPacing ∧
    ∀ d, u = { unread s with drawPacing := d } → u' = { unread t with drawPacing := d } := by
  obtain ⟨hl, ⟨hf, rfl⟩ | ⟨hf, hc, rfl⟩ | ⟨i, hr, hc, -⟩ | ⟨i, c, info, hr, hraises, -, rfl⟩ |
    ⟨hf, hc, ⟨e, hd⟩, hn, rfl⟩ | ⟨hf, hc, ⟨e, hd⟩, hn, rfl⟩⟩ := step_effect h
  · exact ⟨u, step_of_halted hl hf, rfl, fun _ => id⟩
  · exact ⟨u, step_of_fetch_fault hl hf hc, rfl, fun _ => id⟩
  · refine ⟨Unread.after i (u.fetched s (isDraw i)), step_of_completed (runs_put hr) (completed_put hc),
      (congrArg Unread.drawPacing (after_drawPacing i (u.fetched s (isDraw i)) u.drawPacing)).trans rfl, ?_⟩
    rintro d rfl
    rw [unread_of_completed hc, ← after_drawPacing]
    rfl
  · exact ⟨u, step_of_raises (runs_put hr) (raises_put (u := u.fetched s (isDraw i)) hraises), rfl, fun _ => id⟩
  · refine ⟨{ u.fetched s false with unkSeen := true, unkLast := s.fetchWord },
      (Cycle.unrecognizedWord (put u s) e hl hf hc hd).1 hn, rfl, ?_⟩
    rintro d rfl
    rfl
  · exact ⟨u, (Cycle.unrecognizedWord (put u s) e hl hf hc hd).2 hn, rfl, fun _ => id⟩

/-- Settles O57: by `step_put` with the state's own values but for the switch. -/
theorem drawPacingHasNoEffect : Obligations.DrawPacingHasNoEffect := by
  unfold Obligations.DrawPacingHasNoEffect
  intro s t d h
  obtain ⟨u', hstep, -, hown⟩ := step_put h { unread s with drawPacing := d }
  rw [hown d rfl] at hstep
  exact hstep

/-- Settles O19: by `step_put` with the state's own quirk_draw_pacing, which no step changes. -/
theorem diagnosticsAreNotRead : Obligations.DiagnosticsAreNotRead := by
  unfold Obligations.DiagnosticsAreNotRead
  intro s t op last dirty drew seen h
  obtain ⟨u', hstep, hpacing, -⟩ := step_put h ⟨s.cfg.drawPacing, op, dirty, drew, seen, last⟩
  have hown : u'.drawPacing = t.cfg.drawPacing := by rw [hpacing, Writes.cfg_eq_of_step h]
  refine ⟨put u' t, hstep, ?_⟩
  rw [put, hown]

end Sys2Proof.Proofs.Noninterference
end

section
/-! Statements about single instructions: RND and the subtractions (42_alu.md R98, R100, R102), CALL then RET
(95_test_vectors.md S4), the stores and what reads them back (43_index_memory.md R106 to R108, S6; 20_memory.md R55) and the
sprites of the other wrap modes and drawn twice (44_display.md R111, S7). -/

namespace Sys2Proof.Proofs.Instructions

open Sys2Proof Sys2Proof.Machine Sys2Proof.Safety

/-! ### CALL and RET (S4) -/

/-- Settles O29: RET pops the address that CALL pushed, which is the pc before it. -/
theorem callThenRet : Obligations.CallThenRet := by
  unfold Obligations.CallThenRet
  refine fun s nnn h => ⟨_, exec_call_of_lt s nnn h, toNat_zextAddr nnn, ?_, exec_ret_of_append _ rfl⟩
  rw [List.length_append, List.length_singleton]

/-! ### RND and the subtractions (R98, R100, R102) -/

/-- Settles O37: a write of VX with the masked draw, and a step of the count of draws. -/
theorem randomIsMaskedDraw : Obligations.RandomIsMaskedDraw := by
  unfold Obligations.RandomIsMaskedDraw
  intro s x nn
  have hx : (s.setV x (Config.draw s.draws &&& nn)).getV x = Config.draw s.draws &&& nn := Alu.getV_setV_same s x _
  refine ⟨{ s.setV x (Config.draw s.draws &&& nn) with draws := s.draws + 1 }, rfl, rfl, rfl, hx, ?_, ?_,
    fun r => Alu.getV_setV_of_ne s _⟩
  · rintro rfl
    exact hx.trans BitVec.and_zero
  · rintro rfl
    exact hx.trans BitVec.and_allOnes

theorem flagByte_notBorrow (a b : Byte) : flagByte (notBorrow a b) = if a.toNat ≥ b.toNat then 1 else 0 := by
  simp only [flagByte, notBorrow, decide_eq_true_eq, ge_iff_le]

/-- The difference of two bytes as an integer, modulo 256. -/
theorem toNat_sub_eq_emod (a b : Byte) : ((a - b).toNat : Int) = (a.toNat - b.toNat : Int) % 256 := by
  have := a.isLt
  have := b.isLt
  rw [BitVec.toNat_sub]
  omega

/-- The result and the flag of a subtraction `a - b` into VX (R90). -/
theorem writeWithFlag_sub (s : State) (x : Reg) (a b : Byte) :
    OnlyV s (s.writeWithFlag x (a - b) (notBorrow a b)) ∧
      (s.writeWithFlag x (a - b) (notBorrow a b)).getV VF = (if a.toNat ≥ b.toNat then 1 else 0) ∧
      (x ≠ VF → (((s.writeWithFlag x (a - b) (notBorrow a b)).getV x).toNat : Int) = (a.toNat - b.toNat : Int) % 256) ∧
      ∀ r, r ≠ x → r ≠ VF → (s.writeWithFlag x (a - b) (notBorrow a b)).getV r = s.getV r := by
  refine ⟨Alu.onlyV_writeWithFlag s x _ _, ?_, fun hx => ?_, fun r => Alu.getV_writeWithFlag_of_ne s _ _⟩
  · rw [Alu.getV_writeWithFlag_VF, flagByte_notBorrow]
  · rw [Alu.getV_writeWithFlag_same s _ _ hx, toNat_sub_eq_emod]

/-- Settles O35: the two subtractions differ in the order of their operands only. -/
theorem subtractWithBorrow : Obligations.SubtractWithBorrow := by
  unfold Obligations.SubtractWithBorrow
  exact fun s x y => ⟨⟨_, rfl, writeWithFlag_sub s x (s.getV x) (s.getV y)⟩,
    ⟨_, rfl, writeWithFlag_sub s x (s.getV y) (s.getV x)⟩⟩

/-! ### Stores and what reads them back (R55, R106 to R108) -/

/-- The k-th byte of a list written from `a` on. -/
theorem read_writeList_of_lt {m : Memory} (hwf : m.wf = true) {a : Nat} {bs : List Byte} (ha : a + bs.length ≤ memSize)
    {k : Nat} (hk : k < bs.length) : (m.writeList a bs).read (a + k) = bs[k] := by
  rw [Memory.read_writeList hwf ha, dif_pos ⟨Nat.le_add_right a k, Nat.add_lt_add_left hk a⟩]
  simp only [Nat.add_sub_cancel_left]

theorem toNat_byte_of_lt {n : Nat} (h : n < 256) : (BitVec.ofNat 8 n).toNat = n := by
  rw [BitVec.toNat_ofNat, Nat.mod_eq_of_lt h]

/-- Settles O40: inside memory by the three bytes of `bcdDigits`, past its end the fault that ends the step. -/
theorem bcdStoresDigits : Obligations.BcdStoresDigits := by
  unfold Obligations.BcdStoresDigits
  refine ⟨fun s x hwf hle => ?_, fun s x hr hgt => ?_⟩
  · have hb : (s.getV x).toNat < 256 := (s.getV x).isLt
    have hfit : s.i.toNat + (bcdDigits (s.getV x)).length ≤ memSize := by
      rw [Writes.length_bcdDigits, memSize]; omega
    have hdigit {k : Nat} (hk : k < 3) := read_writeList_of_lt hwf hfit (k := k) hk
    refine ⟨_, exec_ldBVx_of_le s x hle, rfl, ?_, ?_, ?_, fun a ha => ?_⟩
    · exact (congrArg BitVec.toNat (hdigit (k := 0) (by decide))).trans (toNat_byte_of_lt (by omega))
    · exact (congrArg BitVec.toNat (hdigit (k := 1) (by decide))).trans (toNat_byte_of_lt (by omega))
    · exact (congrArg BitVec.toNat (hdigit (k := 2) (by decide))).trans (toNat_byte_of_lt (by omega))
    · rw [Memory.read_writeList hwf hfit]
      exact dif_neg (by rw [Writes.length_bcdDigits]; omega)
  · have hpast : (s.fetched (isDraw (.ldBVx x))).i.toNat + 2 > 0x0FFF := hgt
    exact step_of_raise hr nofun (exec_ldBVx_of_gt _ x hpast)

/-- The register stored at its place of FX55's list (R107). -/
theorem read_storeRegs_of_le {s : State} (hwf : s.mem.wf = true) {a : Nat} {x r : Reg} (ha : a + (x.val + 1) ≤ memSize)
    (hr : r ≤ x) : (storeRegs s a x).read (a + r.val) = s.getV r := by
  rw [read_storeRegs hwf ha, dif_pos ⟨Nat.le_add_right a _, Nat.add_le_add_left hr a⟩]
  simp only [Nat.add_sub_cancel_left]

/-- Settles O43: FX65 reads the bytes where FX55 stored them, and both advance I by the same amount from the same value. -/
theorem storeThenLoadRestores : Obligations.StoreThenLoadRestores := by
  unfold Obligations.StoreThenLoadRestores
  intro s t u x w hwf hle ht hu
  cases ht.symm.trans (exec_ldMemVx_of_le s x hle)
  have hle' : ({ State.advanceI { s with mem := storeRegs s s.i.toNat x } x with v := w, i := s.i } : State).i.toNat +
    x.val ≤ 0x0FFF := hle
  cases hu.symm.trans (exec_ldVxMem_of_le _ x hle')
  refine ⟨fun r hr => ?_, ?_, ?_⟩
  · rw [IndexMemory.getV_advanceI, getV_loadRegs, if_pos hr]
    exact (congrArg (Memory.read · _) (IndexMemory.mem_advanceI _ x)).trans
      (read_storeRegs_of_le hwf (by rw [memSize]; omega) hr)
  · rw [loadRegs_eq, State.advanceI_eq, State.advanceI_eq]
  · rw [loadRegs_eq, State.advanceI_eq]

/-- Settles O44: the step leaves pc at the first byte that FX55 wrote, and V0 and V1 in the first two bytes there. -/
theorem storeSeenByNextFetch : Obligations.StoreSeenByNextFetch := by
  unfold Obligations.StoreSeenByNextFetch
  intro s t x hwf hr hi hx hle h
  cases h.symm.trans (Noninterference.step_of_completed hr ⟨hle, rfl⟩)
  have hfit : s.i.toNat + (x.val + 1) ≤ memSize := by rw [memSize]; omega
  obtain ⟨-, -, hfetch, -⟩ := hr
  have hpc : (s.pc + 2).toNat = s.i.toNat := (Invariant.toNat_pc_add_two hfetch).1.trans hi.symm
  have hread {r : Reg} (hrx : r ≤ x) := read_storeRegs_of_le (s := s.fetched false) hwf hfit hrx
  rw [State.advanceI_eq]
  show wordOfBytes ((storeRegs (s.fetched false) s.i.toNat x).read (s.pc + 2).toNat)
    ((storeRegs (s.fetched false) s.i.toNat x).read ((s.pc + 2).toNat + 1)) = wordOfBytes (s.getV 0) (s.getV 1)
  rw [hpc]
  exact congrArg₂ wordOfBytes (hread (r := 0) (Fin.zero_le x)) (hread (r := 1) hx)

/-! ### Sprites in clip and axis mode, and drawn twice (R111, S7) -/

section Sprites

variable {s : State} {x y : Reg} {n : Nibble} {k : Fin 2048}

theorem spriteCell_clip_eq_some {px py : Nat} :
    spriteCell .clip px py = some k ↔ px < 64 ∧ py < 32 ∧ k.val = px + 64 * py := by
  rw [spriteCell]
  split
  next hin => simp only [Option.some.injEq, Fin.ext_iff, hin, true_and, eq_comm]
  next hout => exact iff_of_false nofun fun ⟨hpx, hpy, _⟩ => hout ⟨hpx, hpy⟩

theorem spriteCell_axis_eq_some {px py : Nat} :
    spriteCell .axis px py = some k ↔ k.val = px % 64 + 64 * (py % 32) := by
  simp only [spriteCell, Option.some.injEq, Fin.ext_iff, eq_comm]

/-- The cells a sprite covers in the two modes, each under its own formula. -/
theorem mem_drawCells_of_not_linear (h : s.cfg.spriteWrap ≠ .linear) (k : Fin 2048) :
    k ∈ drawCells s x y n ↔ ∃ r c, r < n.toNat ∧ c < 8 ∧ (s.mem.read (s.i.toNat + r)).getLsbD (7 - c) = true ∧
      (s.cfg.spriteWrap = .clip → (s.getV x).toNat % 64 + c < 64 ∧ (s.getV y).toNat % 32 + r < 32 ∧
        k.val = (s.getV x).toNat % 64 + c + 64 * ((s.getV y).toNat % 32 + r)) ∧
      (s.cfg.spriteWrap = .axis →
        k.val = ((s.getV x).toNat % 64 + c) % 64 + 64 * (((s.getV y).toNat % 32 + r) % 32)) := by
  rw [drawCells, mem_spriteCells]
  cases hmode : s.cfg.spriteWrap with
  | linear => exact absurd hmode h
  | clip => simp only [rowPixel, indexAddr, spriteCell_clip_eq_some, reduceCtorEq, forall_const, false_implies, and_true]
  | axis => simp only [rowPixel, indexAddr, spriteCell_axis_eq_some, reduceCtorEq, forall_const, false_implies, true_and]

/-- With its coordinates not in VF, DXYN covers the same cells when it runs again. -/
theorem drawCells_drawn (hx : x ≠ VF) (hy : y ≠ VF) : drawCells (Display.drawn s x y n) x y n = drawCells s x y n := by
  have hVx : (Display.drawn s x y n).getV x = s.getV x := Display.getV_drawn_of_ne hx
  have hVy : (Display.drawn s x y n).getV y = s.getV y := Display.getV_drawn_of_ne hy
  rw [drawCells, hVx, hVy]
  rfl

/-- A draw whose sprite covers no cell changes nothing on the screen. -/
theorem fb_drawn_of_no_cell (h : ∀ k, k ∉ drawCells s x y n) : (Display.drawn s x y n).fb = s.fb :=
  Frame.ext_pixel fun k => Display.pixel_drawn_of_not_mem (h k)

end Sprites

/-- Settles O47: what DXYN does by the cells that its sprite covers. -/
theorem drawClipAndAxis : Obligations.DrawClipAndAxis := by
  unfold Obligations.DrawClipAndAxis
  exact fun s x y n hmode hin => Display.exec_drw_of_covers (mem_drawCells_of_not_linear hmode) hin

/-- Settles O48: the second draw inverts the same cells again; a cell that both cover is on before one of them. -/
theorem drawTwiceRestores : Obligations.DrawTwiceRestores := by
  unfold Obligations.DrawTwiceRestores
  intro s t u x y n hx hy hin ht hu
  cases ht.symm.trans (Display.exec_drw_eq_drawn hin)
  have hin' : n = 0 ∨ (Display.drawn s x y n).i.toNat + n.toNat - 1 ≤ 0x0FFF := hin
  cases hu.symm.trans (Display.exec_drw_eq_drawn hin')
  have hcells : drawCells (Display.drawn s x y n) x y n = drawCells s x y n := drawCells_drawn hx hy
  refine ⟨Frame.ext_pixel fun k => ?_, ?_⟩
  · rw [Display.pixel_drawn, Display.pixel_drawn, hcells, Bool.xor_assoc, Bool.xor_self, Bool.xor_false]
  · by_cases hnone : ∀ k, k ∉ drawCells s x y n
    · exact .inl (fb_drawn_of_no_cell hnone)
    · simp only [not_forall, not_not] at hnone
      obtain ⟨k, hk⟩ := hnone
      cases hon : s.fb.pixel k with
      | true => exact .inr (.inl (Display.getV_drawn_VF.trans (if_pos ⟨k, hk, hon⟩)))
      | false =>
        have hon' : (Display.drawn s x y n).fb.pixel k = true := by rw [Display.pixel_drawn_of_mem hk, hon, Bool.not_false]
        exact .inr (.inr (Display.getV_drawn_VF.trans (if_pos ⟨k, hcells ▸ hk, hon'⟩)))

end Sys2Proof.Proofs.Instructions
end

section
/-! The statements about runs: Load and Step (20_memory.md R57, 60_exceptions.md R133, 70_reset_and_hazards.md R140), the
draw-pacing obligation (R131), the countdown of the timers (R126) and the idle state (R137). -/

namespace Sys2Proof.Proofs.HostRuns

open Sys2Proof Sys2Proof.Machine Sys2Proof.Safety

variable {r q u : Session} {s t : State}

/-! ### Load and Step (R57, R133) -/

theorem perform_step_of_not_loaded (h : r.core.loaded = false) : perform .step r = none :=
  perform_of_not_admits (Bool.eq_false_iff.2 fun ha => absurd ((Session.admits_step.1 ha).1.symm.trans h) nofun)

theorem perform_step_of_owed (h : r.tickOwed = true) : perform .step r = none :=
  perform_of_not_admits (Bool.eq_false_iff.2 fun ha => absurd ((Session.admits_step.1 ha).2.symm.trans h) nofun)

/-- A Step of a loaded core with no Tick due has a transition. -/
theorem perform_step (hl : r.core.loaded = true) (ho : r.tickOwed = false) : ∃ t, step r.core = .next t ∧
    perform .step r = some (.done, { r with core := t, tickOwed := t.cfg.drawPacing && t.drew }) := by
  obtain ⟨t, ht⟩ := step_next hl
  exact ⟨t, ht, perform_of_admits (Session.admits_step.2 ⟨hl, ho⟩) (effect_step ht)⟩

theorem perform_load (hl : r.core.loaded = false) (hi : r.loadIssued = false) (image : Image) :
    perform (.load image) r = some (.loadResult (r.core.load image).1,
      { r with core := (r.core.load image).2, loadIssued := true }) :=
  perform_of_admits (Session.admits_load.2 ⟨hl, hi⟩) rfl

theorem perform_load_of_issued (h : r.core.loaded = true ∨ r.loadIssued = true) (image : Image) :
    perform (.load image) r = none := by
  refine perform_of_not_admits (Bool.eq_false_iff.2 fun ha => ?_)
  obtain ⟨hl, hi⟩ := Session.admits_load.1 ha
  rcases h with h | h
  · exact absurd (hl.symm.trans h) nofun
  · exact absurd (hi.symm.trans h) nofun

/-- Settles O7, a clause at a time. -/
theorem loadOnceThenStep : Obligations.LoadOnceThenStep := by
  unfold Obligations.LoadOnceThenStep
  exact fun r => ⟨fun h => ⟨step_of_not_loaded h, perform_step_of_not_loaded h⟩, perform_step,
    fun image hl hi => perform_load hl hi image, fun image h => perform_load_of_issued h image⟩

/-! ### After a Load that failed (R57, R140) -/

/-- `t` is `s` but for the timers, the keys and `dirty`: what a host may still change once no Step has a transition. -/
def OnlyHostWrites (s t : State) : Prop :=
  { t with dt := s.dt, st := s.st, key := s.key, dirty := s.dirty } = s

theorem OnlyHostWrites.loaded_eq (h : OnlyHostWrites s t) : t.loaded = s.loaded :=
  (congrArg State.loaded h).trans rfl

/-- The host's operations other than Load and Step write nothing else. -/
theorem OnlyHostWrites.write (h : OnlyHostWrites s t) (dt st : Byte) (key : Vector Bool 16) (dirty : Bool) :
    OnlyHostWrites s { t with dt := dt, st := st, key := key, dirty := dirty } := h

/-- The run has ended at a Load that failed with the core in `s`. -/
structure Ended (s : State) (r : Session) : Prop where
  issued : r.loadIssued = true
  core : OnlyHostWrites s r.core

/-- No operation leaves the end of a run. -/
theorem ended_of_perform {op : Operation} {response : Response} (hs : s.loaded = false) (h : Ended s r)
    (hp : perform op r = some (response, q)) : Ended s q := by
  obtain ⟨hadm, t, heff, rfl⟩ := perform_cases hp
  obtain ⟨hi, hc⟩ := h
  refine ⟨(Session.after_loadIssued r op t).2 (.inl hi), ?_⟩
  rw [Session.after_core]
  rcases effect_cases heff with ⟨image, rfl, -⟩ | ⟨rfl, -⟩ | ⟨-, rfl⟩ | ⟨k, -, rfl⟩ | ⟨k, -, rfl⟩ | ⟨-, rfl⟩ | ⟨-, rfl⟩
  · exact absurd ((Session.admits_load.1 hadm).2.symm.trans hi) nofun
  · exact absurd ((Session.admits_step.1 hadm).1.symm.trans (hc.loaded_eq.trans hs)) nofun
  · exact hc.write _ _ _ _
  · exact hc.write _ _ _ _
  · exact hc.write _ _ _ _
  · exact hc.write _ _ _ _
  · exact hc

/-- A Load that answers FAIL ends the run with the core as it was (R56). -/
theorem ended_of_failed_load {image : Image} (h : perform (.load image) r = some (.loadResult false, q)) :
    r.core.loaded = false ∧ Ended r.core q := by
  obtain ⟨hadm, t, heff, rfl⟩ := perform_cases h
  refine ⟨(Session.admits_load.1 hadm).1, rfl, ?_⟩
  rcases load_cases r.core image with hfail | ⟨bs, -, -, hok⟩
  · simp only [effect, hfail] at heff
    cases heff
    rfl
  · simp only [effect, hok] at heff
    cases heff

/-- Settles O60: the run ends at the failed Load, and every further operation keeps it ended. -/
theorem failedLoadEndsRun : Obligations.FailedLoadEndsRun := by
  unfold Obligations.FailedLoadEndsRun
  intro r q u image ops hload hops
  obtain ⟨hl, hq⟩ := ended_of_failed_load hload
  obtain ⟨hi, hc⟩ : Ended r.core u := performAll_keeps (fun op _ v response w hv hp => ended_of_perform hl hv hp) hq hops
  exact ⟨perform_step_of_not_loaded (hc.loaded_eq.trans hl), fun again => perform_load_of_issued (.inr hi) again, hc⟩

/-! ### The draw-pacing obligation (R131) -/

/-- A Tick is due before the next Step. -/
structure TickDue (r : Session) : Prop where
  loaded : r.core.loaded = true
  owed : r.tickOwed = true

/-- A Tick that is due stays due under every operation but a Tick. -/
theorem tickDue_of_perform {op : Operation} {response : Response} (hop : op ≠ .tick) (h : TickDue r)
    (hp : perform op r = some (response, q)) : TickDue q := by
  obtain ⟨hadm, t, heff, rfl⟩ := perform_cases hp
  obtain ⟨hl, ho⟩ := h
  rcases effect_cases heff with ⟨image, rfl, -⟩ | ⟨rfl, -⟩ | ⟨rfl, -⟩ | ⟨k, rfl, rfl⟩ | ⟨k, rfl, rfl⟩ | ⟨rfl, rfl⟩ |
    ⟨rfl | rfl | rfl, rfl⟩
  · exact absurd ((Session.admits_load.1 hadm).1.symm.trans hl) nofun
  · exact absurd ((Session.admits_step.1 hadm).2.symm.trans ho) nofun
  · exact absurd rfl hop
  · exact ⟨hl, ho⟩
  · exact ⟨hl, ho⟩
  · exact ⟨hl, ho⟩
  · exact ⟨hl, ho⟩
  · exact ⟨hl, ho⟩
  · exact ⟨hl, ho⟩

/-- What a Step that has a transition leaves. -/
theorem step_of_perform {response : Response} (h : perform .step r = some (response, q)) :
    q.core.loaded = true ∧ q.core.cfg = r.core.cfg ∧ q.tickOwed = (q.core.cfg.drawPacing && q.core.drew) := by
  obtain ⟨hadm, t, heff, rfl⟩ := perform_cases h
  obtain ⟨hl, -⟩ := Session.admits_step.1 hadm
  obtain ⟨_, hstep⟩ := step_next hl
  cases (effect_step hstep).symm.trans heff
  exact ⟨(Writes.loaded_eq_of_step hstep).trans hl, Writes.cfg_eq_of_step hstep, rfl⟩

/-- Settles O58: a Step that drew makes a Tick due, which only a Tick meets; with the quirk off none is ever due. -/
theorem pacingAsksForTick : Obligations.PacingAsksForTick := by
  unfold Obligations.PacingAsksForTick
  refine ⟨fun r q u ops hd hstep hdrew hops hrun => ?_, fun r q hd hstep => ?_⟩
  · obtain ⟨hl, hcfg, howed⟩ := step_of_perform hstep
    have hq : TickDue q := ⟨hl, by rw [howed, hcfg, hd, hdrew, Bool.and_self]⟩
    obtain ⟨hlu, hou⟩ : TickDue u := performAll_keeps
      (fun op hop v response w hv hp => tickDue_of_perform (fun heq => hops (heq ▸ hop)) hv hp) hq hrun
    obtain ⟨t, -, ht⟩ := perform_step (r := { u with core := u.core.tick, tickOwed := false }) hlu rfl
    exact ⟨perform_step_of_owed hou, _, _, Exceptions.perform_tick u, ht⟩
  · obtain ⟨hl, hcfg, howed⟩ := step_of_perform hstep
    obtain ⟨t, -, ht⟩ := perform_step (r := q) hl (by rw [howed, hcfg, hd, Bool.false_and])
    exact ⟨_, ht⟩

/-! ### Ticks in a row (R126) -/

/-- Settles O53, by induction on the number of Ticks: the first takes one from each timer and the others the rest. -/
theorem ticksCountDown : Obligations.TicksCountDown := by
  unfold Obligations.TicksCountDown
  intro n
  induction n with
  | zero => exact fun r => ⟨r, rfl, rfl, rfl, rfl⟩
  | succ n ih =>
    intro r
    obtain ⟨q, hq, hdt, hst, hframe⟩ := ih { r with core := r.core.tick, tickOwed := false }
    refine ⟨q, ?_, ?_, ?_, ?_⟩
    · rw [List.replicate_succ, performAll, Exceptions.perform_tick]
      exact hq
    · rw [hdt, State.tick_dt, Exceptions.toNat_countDown]
      omega
    · rw [hst, State.tick_st, Exceptions.toNat_countDown]
      omega
    · exact congrArg (fun s : State => { s with dt := r.core.dt, st := r.core.st }) hframe

/-! ### The idle state (R137) -/

/-- The state after a jump from pc to itself. -/
def jumpedToSelf (s : State) : State := { s with opcode := s.fetchWord, drew := false }

/-- An idle state runs the jump to its own address. -/
theorem runs_of_idle (hl : s.loaded = true) (h : Idle s) : Runs s (.jp (s.pc.setWidth 12)) := by
  obtain ⟨hf, hc, hw, -⟩ := h
  refine ⟨hl, hf, hc, ?_⟩
  rw [State.decoded, hw, Encoding.decodeWord_family1 (fieldF_wordNNN _ _), fieldNNN_wordNNN]

theorem step_of_idle (hl : s.loaded = true) (h : Idle s) : step s = .next (jumpedToSelf s) := by
  have hpc : zextAddr (s.pc.setWidth 12) = s.pc := h.2.2.2
  refine Noninterference.step_of_completed (runs_of_idle hl h) ?_
  show jumpedToSelf s = (s.fetched false).setPc (zextAddr (s.pc.setWidth 12))
  rw [hpc]
  rfl

/-- Settles O56: a jump to itself latches the word and changes nothing that makes the state idle; the second latches the
same word. -/
theorem idleStaysIdle : Obligations.IdleStaysIdle := by
  unfold Obligations.IdleStaysIdle
  intro s h hl
  have hidle : Idle (jumpedToSelf s) := h
  exact ⟨jumpedToSelf s, step_of_idle hl h, rfl, hidle, step_of_idle (s := jumpedToSelf s) hl hidle⟩

end Sys2Proof.Proofs.HostRuns
end
